-- ==== Sys2Proof/Word.lean ====
section
/-! DEFINITION. The words of the machine: bytes, 16-bit words and the 4-bit register and key numbers. -/

namespace Sys2Proof

/-- The data width, 8 bits (00_scope.md R4 `XLEN`). -/
abbrev Byte := BitVec 8

/-- The width of `I`, `PC`, a call-stack entry and an opcode, 16 bits (00_scope.md R4). -/
abbrev Word := BitVec 16

/-- The index of a general register: the 4-bit opcode fields `x` and `y` (10_state.md R11). -/
abbrev RegIx := BitVec 4

/-- One of the 16 logical keys, 0 to 15 (60_exceptions.md R180). -/
abbrev Key := BitVec 4

end Sys2Proof
end

