-- ==== Sys2Proof/Config.lean ====
section
/-! DEFINITION. What is fixed for the machine: the sourced sizes of 00_scope.md R4, the display-edge parameter's
type, and the FREE VALUES, constants with no body that nothing can evaluate. The parameters that the spec decides
by a default (`FONT`, `MEM_FILL`, `HAS_CLS`, `DISPLAY_EDGE`) have their values in Machine/Params.lean. -/

namespace Sys2Proof.Config

/-- `MEM_SIZE`: addresses run from 0 to 0xFFF (20_memory.md R40). -/
def memSize : Nat := 0x1000

/-- `PROG_BASE`: the first address guest code may write, and where a program image is loaded
(20_memory.md R41, R54). -/
def progBase : Nat := 0x200

/-- `PROG_MAX_LEN`: the longest program image in bytes (20_memory.md R54). -/
def progMaxLen : Nat := 3584

/-- `ENTRY_PC`: the program counter after reset (70_reset_and_hazards.md R191). -/
def entryPc : Word := 0x200

/-- `FLAG_REG`: the general register that six operations use as a flag output (10_state.md R13). -/
def flagReg : RegIx := 15

/-- The values of the parameter `DISPLAY_EDGE` of the reference display (60_exceptions.md R178). -/
inductive DisplayEdge where
  | wrap   -- coordinates are taken modulo the size of the grid
  | clip   -- pixels past the right or bottom edge are dropped
deriving DecidableEq, Repr

/-- FREE VALUE (log 6). The `n`-th answer of `Rng.Byte()` for which no answer is queued in the state: any byte
(60_exceptions.md R183). -/
opaque rngByte : Nat → Byte

/-- FREE VALUE (log 7). The keys that are down at the `n`-th query `Keypad.Held` for which no snapshot is queued,
bit `k` for key `k`: any set of keys (60_exceptions.md R180, R182). -/
opaque heldKeys : Nat → BitVec 16

/-- FREE VALUE (log 8). The `n`-th answer of `Keypad.Event()` for which no answer is queued: nothing or any key
(60_exceptions.md R181, R182). -/
opaque keyEvent : Nat → Option Key

/-- FREE VALUE (log 9). How many Timer Driver ticks fall before the `n`-th step for which no number is queued: any
number (70_reset_and_hazards.md R197). -/
opaque ticksBefore : Nat → Nat

end Sys2Proof.Config
end

