-- ==== Sys2Proof/Machine/Params.lean ====
section
/-! DEFINITION. The values of the parameters that the spec fixes by a decision and a default (00_scope.md R4):
`HAS_CLS`, `MEM_FILL`, `FONT` and `DISPLAY_EDGE`. -/

namespace Sys2Proof.Machine

/-- `HAS_CLS`: opcode 0x00E0 is the clear-display operation (42_index_random_display_keypad.md R123, D3).
DESIGN CHOICE (log 3): the spec's default. -/
def hasCls : Bool := true

/-- `MEM_FILL`: a memory byte that is no glyph byte and was never written (20_memory.md R53, D6).
DESIGN CHOICE (log 2): the spec's default. -/
def memFill : Byte := 0x00

/-- `DISPLAY_EDGE` of the reference display (60_exceptions.md R178, D18).
DESIGN CHOICE (log 4): the spec's default. -/
def displayEdge : Config.DisplayEdge := .wrap

/-- `FONT[0..79]`: sixteen glyphs of five bytes, top row first (20_memory.md R51, R52, D7).
DESIGN CHOICE (log 1): the spec's default table. -/
def font : List Byte :=
  [0xF0, 0x90, 0x90, 0x90, 0xF0,  0x20, 0x60, 0x20, 0x20, 0x70,
   0xF0, 0x10, 0xF0, 0x80, 0xF0,  0xF0, 0x10, 0xF0, 0x10, 0xF0] ++
  [0x90, 0x90, 0xF0, 0x10, 0x10,  0xF0, 0x80, 0xF0, 0x10, 0xF0,
   0xF0, 0x80, 0xF0, 0x90, 0xF0,  0xF0, 0x10, 0x20, 0x40, 0x40] ++
  [0xF0, 0x90, 0xF0, 0x90, 0xF0,  0xF0, 0x90, 0xF0, 0x10, 0xF0,
   0xF0, 0x90, 0xF0, 0x90, 0x90,  0xE0, 0x90, 0xE0, 0x90, 0xE0] ++
  [0xF0, 0x80, 0x80, 0x80, 0xF0,  0xE0, 0x90, 0x90, 0x90, 0xE0,
   0xF0, 0x80, 0xF0, 0x80, 0xF0,  0xF0, 0x80, 0xF0, 0x80, 0x80]

/-- The bytes of one glyph, `GLYPH_SIZE` (20_memory.md R51). -/
def glyphSize : Nat := 5

end Sys2Proof.Machine
end

