-- ==== Sys2Proof/Syntax.lean ====
section
/-! DEFINITION. The instructions: one constructor per row of spec/opcode_table.json, in the table's order
(30_encoding.md R66). Every field has the width its encoding gives it. -/

namespace Sys2Proof

/-- The 34 operations of 30_encoding.md R66. Constructor names are the table's mnemonics. `shrVx` and `shlVx` keep
the don't-care field `y` (R73), so that no bit of an encoding is lost (log 16). -/
inductive Instr where
  | cls                                       -- 00E0
  | ret                                       -- 00EE
  | jpNnn (nnn : BitVec 12)                   -- 1nnn
  | callNnn (nnn : BitVec 12)                 -- 2nnn
  | seVxKk (x : RegIx) (kk : Byte)            -- 3xkk
  | sneVxKk (x : RegIx) (kk : Byte)           -- 4xkk
  | seVxVy (x y : RegIx)                      -- 5xy0
  | ldVxKk (x : RegIx) (kk : Byte)            -- 6xkk
  | addVxKk (x : RegIx) (kk : Byte)           -- 7xkk
  | ldVxVy (x y : RegIx)                      -- 8xy0
  | orVxVy (x y : RegIx)                      -- 8xy1
  | andVxVy (x y : RegIx)                     -- 8xy2
  | xorVxVy (x y : RegIx)                     -- 8xy3
  | addVxVy (x y : RegIx)                     -- 8xy4
  | subVxVy (x y : RegIx)                     -- 8xy5
  | shrVx (x y : RegIx)                       -- 8xy6, y ignored
  | subnVxVy (x y : RegIx)                    -- 8xy7
  | shlVx (x y : RegIx)                       -- 8xyE, y ignored
  | sneVxVy (x y : RegIx)                     -- 9xy0
  | ldINnn (nnn : BitVec 12)                  -- Annn
  | jpV0Nnn (nnn : BitVec 12)                 -- Bnnn
  | rndVxKk (x : RegIx) (kk : Byte)           -- Cxkk
  | drwVxVyN (x y : RegIx) (n : BitVec 4)     -- Dxyn
  | skpVx (x : RegIx)                         -- Ex9E
  | sknpVx (x : RegIx)                        -- ExA1
  | ldVxDt (x : RegIx)                        -- Fx07
  | ldVxK (x : RegIx)                         -- Fx0A
  | ldDtVx (x : RegIx)                        -- Fx15
  | ldStVx (x : RegIx)                        -- Fx18
  | addIVx (x : RegIx)                        -- Fx1E
  | ldFVx (x : RegIx)                         -- Fx29
  | ldBVx (x : RegIx)                         -- Fx33
  | ldIndIVx (x : RegIx)                      -- Fx55
  | ldVxIndI (x : RegIx)                      -- Fx65
deriving DecidableEq, Repr

end Sys2Proof
end

