-- ==== Sys2Proof/WellFormed.lean ====
section
/-! DEFINITION. Which instructions the machine has. Field widths are in the types, so one check is left: clear-display
exists only where `HAS_CLS` is true. -/

namespace Sys2Proof

/-- The instructions of a machine whose parameter `HAS_CLS` is `hasCls`: all 34, or all but `CLS`
(42_index_random_display_keypad.md R123, 30_encoding.md R67). -/
def Instr.wellFormedWith (hasCls : Bool) : Instr → Bool
  | .cls => hasCls
  | .ret | .jpNnn _ | .callNnn _ | .seVxKk _ _ | .sneVxKk _ _ | .seVxVy _ _ | .ldVxKk _ _ | .addVxKk _ _
  | .ldVxVy _ _ | .orVxVy _ _ | .andVxVy _ _ | .xorVxVy _ _ | .addVxVy _ _ | .subVxVy _ _ | .shrVx _ _
  | .subnVxVy _ _ | .shlVx _ _ | .sneVxVy _ _ | .ldINnn _ | .jpV0Nnn _ | .rndVxKk _ _ | .drwVxVyN _ _ _
  | .skpVx _ | .sknpVx _ | .ldVxDt _ | .ldVxK _ | .ldDtVx _ | .ldStVx _ | .addIVx _ | .ldFVx _ | .ldBVx _
  | .ldIndIVx _ | .ldVxIndI _ => true

/-- The instruction belongs to this machine. -/
def Instr.wellFormed (i : Instr) : Bool := i.wellFormedWith Machine.hasCls

end Sys2Proof
end

