-- ==== Sys2Proof/Decode.lean ====
section
/-! DEFINITION. The decoder, total on any bytes; the encoder, written from the same patterns; and the opcode table of
30_encoding.md R66 as data, against which both are checked. -/

namespace Sys2Proof

/-- The six overlapping fields the decoder extracts from every opcode (30_encoding.md R62). -/
structure Fields where
  opclass : BitVec 4
  x       : BitVec 4
  y       : BitVec 4
  nibble  : BitVec 4
  byte    : BitVec 8
  addr    : BitVec 12
deriving DecidableEq, Repr

/-- Field extraction: pure, total, no failure case (30_encoding.md R62, R63). -/
def fieldsOf (op : Word) : Fields where
  opclass := op.extractLsb' 12 4
  x       := op.extractLsb' 8 4
  y       := op.extractLsb' 4 4
  nibble  := op.extractLsb' 0 4
  byte    := op.extractLsb' 0 8
  addr    := op.extractLsb' 0 12

/-- Class 0: an exact match on all 16 bits (30_encoding.md R67). -/
def dispatch0 (hasCls : Bool) (op : Word) : Option Instr :=
  if op = 0x00E0 ∧ hasCls then some .cls
  else if op = 0x00EE then some .ret
  else none

/-- Class 8: the second switch is on the low nibble (30_encoding.md R68). -/
def dispatch8 (f : Fields) : Option Instr :=
  match f.nibble.toNat with
  | 0x0 => some (.ldVxVy f.x f.y)
  | 0x1 => some (.orVxVy f.x f.y)
  | 0x2 => some (.andVxVy f.x f.y)
  | 0x3 => some (.xorVxVy f.x f.y)
  | 0x4 => some (.addVxVy f.x f.y)
  | 0x5 => some (.subVxVy f.x f.y)
  | 0x6 => some (.shrVx f.x f.y)
  | 0x7 => some (.subnVxVy f.x f.y)
  | 0xE => some (.shlVx f.x f.y)
  | _ => none

/-- Class E: the second switch is on the low byte (30_encoding.md R70). -/
def dispatchE (f : Fields) : Option Instr :=
  match f.byte.toNat with
  | 0x9E => some (.skpVx f.x)
  | 0xA1 => some (.sknpVx f.x)
  | _ => none

/-- Class F: the second switch is on the low byte (30_encoding.md R71). -/
def dispatchF (f : Fields) : Option Instr :=
  match f.byte.toNat with
  | 0x07 => some (.ldVxDt f.x)
  | 0x0A => some (.ldVxK f.x)
  | 0x15 => some (.ldDtVx f.x)
  | 0x18 => some (.ldStVx f.x)
  | 0x1E => some (.addIVx f.x)
  | 0x29 => some (.ldFVx f.x)
  | 0x33 => some (.ldBVx f.x)
  | 0x55 => some (.ldIndIVx f.x)
  | 0x65 => some (.ldVxIndI f.x)
  | _ => none

/-- The dispatch tree of 30_encoding.md R76, for either value of `HAS_CLS`. Classes 5 and 9 need the low nibble 0
(R69). -/
def dispatchWith (hasCls : Bool) (op : Word) : Option Instr :=
  let f := fieldsOf op
  match f.opclass.toNat with
  | 0x0 => dispatch0 hasCls op
  | 0x1 => some (.jpNnn f.addr)
  | 0x2 => some (.callNnn f.addr)
  | 0x3 => some (.seVxKk f.x f.byte)
  | 0x4 => some (.sneVxKk f.x f.byte)
  | 0x5 => if f.nibble = 0 then some (.seVxVy f.x f.y) else none
  | 0x6 => some (.ldVxKk f.x f.byte)
  | 0x7 => some (.addVxKk f.x f.byte)
  | 0x8 => dispatch8 f
  | 0x9 => if f.nibble = 0 then some (.sneVxVy f.x f.y) else none
  | 0xA => some (.ldINnn f.addr)
  | 0xB => some (.jpV0Nnn f.addr)
  | 0xC => some (.rndVxKk f.x f.byte)
  | 0xD => some (.drwVxVyN f.x f.y f.nibble)
  | 0xE => dispatchE f
  | _ => dispatchF f

/-- The operation an opcode selects, or none where it selects none (30_encoding.md R66, R72). -/
def dispatch (op : Word) : Option Instr := dispatchWith Machine.hasCls op

/-- Why bytes are no instruction. -/
inductive DecodeError where
  /-- Fewer than two bytes are left. -/
  | truncated
  /-- The opcode selects no operation (30_encoding.md R72). -/
  | unknownOpcode (op : Word)
deriving DecidableEq, Repr

/-- The opcode held by two bytes of memory, high byte first (20_memory.md R45). -/
def opcodeOf (hi lo : Byte) : Word := hi ++ lo

/-- The decoder on bytes: the instruction at their head and the bytes after it (30_encoding.md R61). -/
def decode : List Byte → Except DecodeError (Instr × List Byte)
  | hi :: lo :: rest =>
    match dispatch (opcodeOf hi lo) with
    | some i => .ok (i, rest)
    | none => .error (.unknownOpcode (opcodeOf hi lo))
  | _ => .error .truncated

/-- Format `NNN`: class and 12-bit address (30_encoding.md R64). -/
def encNNN (c : BitVec 4) (nnn : BitVec 12) : Word := c ++ nnn

/-- Format `XKK`, and `XFN` with the sub-selector as `kk` (30_encoding.md R64). -/
def encXKK (c : BitVec 4) (x : RegIx) (kk : Byte) : Word := c ++ x ++ kk

/-- Format `XYN` (30_encoding.md R64). -/
def encXYN (c : BitVec 4) (x y : RegIx) (n : BitVec 4) : Word := c ++ x ++ y ++ n

/-- The opcode of an instruction, from the patterns of 30_encoding.md R66. -/
def encode : Instr → Word
  | .cls => 0x00E0
  | .ret => 0x00EE
  | .jpNnn nnn => encNNN 0x1 nnn
  | .callNnn nnn => encNNN 0x2 nnn
  | .seVxKk x kk => encXKK 0x3 x kk
  | .sneVxKk x kk => encXKK 0x4 x kk
  | .seVxVy x y => encXYN 0x5 x y 0x0
  | .ldVxKk x kk => encXKK 0x6 x kk
  | .addVxKk x kk => encXKK 0x7 x kk
  | .ldVxVy x y => encXYN 0x8 x y 0x0
  | .orVxVy x y => encXYN 0x8 x y 0x1
  | .andVxVy x y => encXYN 0x8 x y 0x2
  | .xorVxVy x y => encXYN 0x8 x y 0x3
  | .addVxVy x y => encXYN 0x8 x y 0x4
  | .subVxVy x y => encXYN 0x8 x y 0x5
  | .shrVx x y => encXYN 0x8 x y 0x6
  | .subnVxVy x y => encXYN 0x8 x y 0x7
  | .shlVx x y => encXYN 0x8 x y 0xE
  | .sneVxVy x y => encXYN 0x9 x y 0x0
  | .ldINnn nnn => encNNN 0xA nnn
  | .jpV0Nnn nnn => encNNN 0xB nnn
  | .rndVxKk x kk => encXKK 0xC x kk
  | .drwVxVyN x y n => encXYN 0xD x y n
  | .skpVx x => encXKK 0xE x 0x9E
  | .sknpVx x => encXKK 0xE x 0xA1
  | .ldVxDt x => encXKK 0xF x 0x07
  | .ldVxK x => encXKK 0xF x 0x0A
  | .ldDtVx x => encXKK 0xF x 0x15
  | .ldStVx x => encXKK 0xF x 0x18
  | .addIVx x => encXKK 0xF x 0x1E
  | .ldFVx x => encXKK 0xF x 0x29
  | .ldBVx x => encXKK 0xF x 0x33
  | .ldIndIVx x => encXKK 0xF x 0x55
  | .ldVxIndI x => encXKK 0xF x 0x65

/-- The byte at an opcode's lower address: bits 15:8 (20_memory.md R45). -/
def highByte (op : Word) : Byte := op.extractLsb' 8 8

/-- The byte at an opcode's higher address: bits 7:0 (20_memory.md R45). -/
def lowByte (op : Word) : Byte := op.extractLsb' 0 8

/-- An instruction's two bytes as memory holds them, high byte at the lower address (30_encoding.md R61). -/
def encodeBytes (i : Instr) : List Byte := [highByte (encode i), lowByte (encode i)]

/-- One row of the opcode table: its number, match and mask. -/
structure OpcodeRow where
  number  : Nat
  pattern : Word
  mask    : Word
deriving DecidableEq, Repr

/-- The opcode table of 30_encoding.md R66, row by row. -/
def opcodeTable : List OpcodeRow :=
  [⟨1, 0x00E0, 0xFFFF⟩, ⟨2, 0x00EE, 0xFFFF⟩, ⟨3, 0x1000, 0xF000⟩, ⟨4, 0x2000, 0xF000⟩,
   ⟨5, 0x3000, 0xF000⟩, ⟨6, 0x4000, 0xF000⟩, ⟨7, 0x5000, 0xF00F⟩, ⟨8, 0x6000, 0xF000⟩,
   ⟨9, 0x7000, 0xF000⟩] ++
  [⟨10, 0x8000, 0xF00F⟩, ⟨11, 0x8001, 0xF00F⟩, ⟨12, 0x8002, 0xF00F⟩, ⟨13, 0x8003, 0xF00F⟩,
   ⟨14, 0x8004, 0xF00F⟩, ⟨15, 0x8005, 0xF00F⟩, ⟨16, 0x8006, 0xF00F⟩, ⟨17, 0x8007, 0xF00F⟩,
   ⟨18, 0x800E, 0xF00F⟩] ++
  [⟨19, 0x9000, 0xF00F⟩, ⟨20, 0xA000, 0xF000⟩, ⟨21, 0xB000, 0xF000⟩, ⟨22, 0xC000, 0xF000⟩,
   ⟨23, 0xD000, 0xF000⟩, ⟨24, 0xE09E, 0xF0FF⟩, ⟨25, 0xE0A1, 0xF0FF⟩] ++
  [⟨26, 0xF007, 0xF0FF⟩, ⟨27, 0xF00A, 0xF0FF⟩, ⟨28, 0xF015, 0xF0FF⟩, ⟨29, 0xF018, 0xF0FF⟩,
   ⟨30, 0xF01E, 0xF0FF⟩, ⟨31, 0xF029, 0xF0FF⟩, ⟨32, 0xF033, 0xF0FF⟩, ⟨33, 0xF055, 0xF0FF⟩,
   ⟨34, 0xF065, 0xF0FF⟩]

/-- An opcode has a row's pattern: `op & mask == match` (30_encoding.md R66). -/
def OpcodeRow.matches (r : OpcodeRow) (op : Word) : Bool := op &&& r.mask == r.pattern

/-- The number of an instruction's row in the opcode table (30_encoding.md R66). -/
def Instr.rowNumber : Instr → Nat
  | .cls => 1 | .ret => 2 | .jpNnn _ => 3 | .callNnn _ => 4 | .seVxKk _ _ => 5 | .sneVxKk _ _ => 6
  | .seVxVy _ _ => 7 | .ldVxKk _ _ => 8 | .addVxKk _ _ => 9 | .ldVxVy _ _ => 10 | .orVxVy _ _ => 11
  | .andVxVy _ _ => 12 | .xorVxVy _ _ => 13 | .addVxVy _ _ => 14 | .subVxVy _ _ => 15 | .shrVx _ _ => 16
  | .subnVxVy _ _ => 17 | .shlVx _ _ => 18 | .sneVxVy _ _ => 19 | .ldINnn _ => 20 | .jpV0Nnn _ => 21
  | .rndVxKk _ _ => 22 | .drwVxVyN _ _ _ => 23 | .skpVx _ => 24 | .sknpVx _ => 25 | .ldVxDt _ => 26
  | .ldVxK _ => 27 | .ldDtVx _ => 28 | .ldStVx _ => 29 | .addIVx _ => 30 | .ldFVx _ => 31 | .ldBVx _ => 32
  | .ldIndIVx _ => 33 | .ldVxIndI _ => 34

/-- The 16-bit opcode of an instruction whose bits are `w`, of which the table gives the row `nbits`; every bit
above them is 0. Bit 0 of `w` is the opcode's bit 0. -/
def tableWord (nbits w : Nat) : Word := BitVec.ofNat 16 (w % 2 ^ nbits)

/-- The instruction the decoder reads from the word of an opcode-table row, laid out high byte first. -/
def decodeTableWord (nbits w : Nat) : Option Instr :=
  match decode [highByte (tableWord nbits w), lowByte (tableWord nbits w)] with
  | .ok (i, _) => some i
  | .error _ => none

end Sys2Proof
end

