-- ==== Sys2Proof/Machine/State.lean ====
section
/-! DEFINITION. The state of the machine as plain data, the reasons a step could stop, and the state after reset. -/

namespace Sys2Proof.Machine

/-- The kind field of a fault record (10_state.md R24). -/
inductive FaultKind where
  | outOfBounds
  | unknownOpcode
deriving DecidableEq, Repr

/-- The access field of a fault record; `noAccess` is the spec's `none` (10_state.md R24). -/
inductive Access where
  | fetch
  | read
  | write
  | noAccess
deriving DecidableEq, Repr

/-- The fault record inside `Faulted` (10_state.md R24). -/
structure FaultRecord where
  kind    : FaultKind
  info    : Word
  infoOvf : Bool
  access  : Access
deriving DecidableEq, Repr

/-- The execution mode (10_state.md R23). -/
inductive Mode where
  /-- The next step fetches and executes an instruction. -/
  | running
  /-- A wait-for-key with register field `x` is pending; the next step only polls the keypad. -/
  | awaitingKey (x : RegIx)
  /-- A fault was raised; no later step changes any core state. -/
  | faulted (r : FaultRecord)
deriving DecidableEq, Repr

/-- The answers an outside party gives, as the state carries them: those already fixed, next first, and how many
were taken so far. When none is queued the answer is a free value of Config applied to `taken` (log 6 to log 9). -/
structure Feed (α : Type) where
  queued : List α
  taken  : Nat
deriving DecidableEq, Repr

/-- Memory: the bytes that differ from what an unlisted address reads as, addresses strictly rising (log 2). -/
abbrev Memory := List Host.Cell

/-- The pixel grid of the reference display: 32 rows, bit `col` of row `row` is `FB[row][col]`
(60_exceptions.md R178). -/
abbrev Grid := Vector (BitVec 64) 32

/-- The architectural state of the core (10_state.md R10), the reference display (60_exceptions.md R178), and the
inputs from outside (00_scope.md R6). -/
structure State where
  v       : Vector Byte 16        -- V[0]..V[15] (R11)
  i       : Word                  -- I (R16)
  pc      : Word                  -- PC (R17)
  sp      : BitVec 8              -- SP (R21)
  stack   : Vector Word 16        -- STACK[0]..STACK[15] (R21)
  dt      : Byte                  -- DT (R22)
  st      : Byte                  -- ST (R22)
  mem     : Memory                -- MEM (R25)
  mode    : Mode                  -- MODE (R23)
  display : Grid                  -- the display surface (R178)
  rng     : Feed Byte             -- answers of Rng.Byte (R183)
  levels  : Feed (BitVec 16)      -- keys held at each Keypad.Held query (R180)
  events  : Feed (Option Key)     -- answers of Keypad.Event (R181)
  ticks   : Feed Nat              -- ticks of the Timer Driver before each step (R2, R197)
deriving DecidableEq, Repr

/-- The reasons a step stops with a fault: NONE. The two faults of this machine are states: a step that raises one
answers a next state whose mode is `faulted` (60_exceptions.md R166, log 11), and a step in that mode is a no-op
(10_state.md R29). Nothing raises a constructor of this type, because it has none; safe. -/
inductive Fault where
deriving DecidableEq, Repr

/-- The reasons a step is refused. -/
inductive Refusal where
  /-- An instruction without a meaning, by its mnemonic. Only an arm of `exec` may answer it, and none does; safe. -/
  | notModelled (mnemonic : String)
deriving DecidableEq, Repr

/-- A feed with nothing queued and nothing taken yet: DESIGN CHOICE, log 10. -/
def emptyFeed (α : Type) : Feed α := ⟨[], 0⟩

/-- The machine right after reset (10_state.md R28, 70_reset_and_hazards.md R190). Memory lists nothing: the glyphs
and `MEM_FILL` are what unlisted addresses read as. -/
def State.reset : State where
  v       := Vector.replicate 16 0
  i       := 0
  pc      := Config.entryPc
  sp      := 0
  stack   := Vector.replicate 16 0
  dt      := 0
  st      := 0
  mem     := []
  mode    := .running
  display := Vector.replicate 32 0
  rng     := emptyFeed Byte
  levels  := emptyFeed (BitVec 16)
  events  := emptyFeed (Option Key)
  ticks   := emptyFeed Nat

end Sys2Proof.Machine
end

