-- ==== Sys2Proof/Machine/Display.lean ====
section
/-! DEFINITION. The reference display surface: a 64 x 32 grid of one-bit pixels, the XOR-blend request and the clear
request (60_exceptions.md R177, R178). -/

namespace Sys2Proof.Machine

/-- `FB[row][col]`. -/
def pixel (g : Grid) (row : Fin 32) (col : Fin 64) : Bool := (g[row.val]'row.isLt).getLsbD col.val

/-- `FB[row][col] <- FB[row][col] ^ 1`. -/
def flipPixel (g : Grid) (row : Fin 32) (col : Fin 64) : Grid :=
  g.set row.val ((g[row.val]'row.isLt) ^^^ BitVec.twoPow 64 col.val) row.isLt

/-- Where the pixel `b` columns right of and `r` rows below `(vx, vy)` falls, if it is on the grid
(60_exceptions.md R178; for `clip` see log 5). -/
def pixelPlace (edge : Config.DisplayEdge) (vx vy : Byte) (r b : Nat) : Option (Fin 32 × Fin 64) :=
  match edge with
  | .wrap => some (Fin.ofNat 32 (vy.toNat + r), Fin.ofNat 64 (vx.toNat + b))
  | .clip =>
    if h : vy.toNat + r < 32 ∧ vx.toNat + b < 64 then some (⟨vy.toNat + r, h.1⟩, ⟨vx.toNat + b, h.2⟩)
    else none

/-- The pixels that a sprite row byte at row offset `r` covers, leftmost first: bit 7 is the leftmost
(60_exceptions.md R178). -/
def rowPlaces (edge : Config.DisplayEdge) (vx vy : Byte) (r : Nat) (row : Byte) : List (Fin 32 × Fin 64) :=
  [0, 1, 2, 3, 4, 5, 6, 7].filterMap fun b =>
    if row.getLsbD (7 - b) then pixelPlace edge vx vy r b else none

/-- The pixels that the rows of a sprite cover, from row offset `r` down, in the order they are blended. -/
def spritePlaces (edge : Config.DisplayEdge) (vx vy : Byte) (r : Nat) : List Byte → List (Fin 32 × Fin 64)
  | [] => []
  | row :: rows => rowPlaces edge vx vy r row ++ spritePlaces edge vx vy (r + 1) rows

/-- Blending pixels one by one: each is inverted, and the collision bit is set by one that was set
(60_exceptions.md R178). -/
def blendPlaces (g : Grid) (c : Bool) : List (Fin 32 × Fin 64) → Grid × Bool
  | [] => (g, c)
  | (row, col) :: ps => blendPlaces (flipPixel g row col) (c || pixel g row col) ps

/-- `XorBlit(vx, vy, rows)` for either value of `DISPLAY_EDGE`: the new grid and the collision answer
(60_exceptions.md R178). -/
def xorBlitWith (edge : Config.DisplayEdge) (g : Grid) (vx vy : Byte) (rows : List Byte) : Grid × Bool :=
  blendPlaces g false (spritePlaces edge vx vy 0 rows)

/-- `Display.XorBlit(vx, vy, rows)` (60_exceptions.md R177). -/
def xorBlit (g : Grid) (vx vy : Byte) (rows : List Byte) : Grid × Bool := xorBlitWith displayEdge g vx vy rows

/-- `Display.Clear()`: every pixel unset (60_exceptions.md R177). -/
def clearedGrid : Grid := Vector.replicate 32 0

end Sys2Proof.Machine
end

