-- ==== Sys2Proof/Machine/Operands.lean ====
section
/-! DEFINITION. The operand forms: registers, immediates, the memory operand through `I`, the digit and key selected
by a register, and the answers of the outside parties (30_encoding.md R65, 43_timer_index_memory_keywait.md R139). -/

namespace Sys2Proof.Machine

/-- `V[x]` (10_state.md R11). -/
def State.reg (s : State) (x : RegIx) : Byte := s.v[x.toNat]'x.isLt

/-- `V[x] <- b` (10_state.md R11). -/
def State.setReg (s : State) (x : RegIx) (b : Byte) : State := { s with v := s.v.set x.toNat b x.isLt }

/-- A 12-bit address immediate, zero-extended to 16 bits (30_encoding.md R65). -/
def addrImm (nnn : BitVec 12) : Word := nnn.zeroExtend 16

/-- The effective address of byte `k` of a memory access: the exact sum `I + k`, never truncated
(43_timer_index_memory_keywait.md R139, 20_memory.md R44). -/
def State.effectiveAddress (s : State) (k : Nat) : Nat := s.i.toNat + k

/-- The low 4 bits of a register: the digit of `Fx29` (43_timer_index_memory_keywait.md R140) and the key of `Ex9E`
and `ExA1` (42_index_random_display_keypad.md R124). -/
def lowDigit (b : Byte) : BitVec 4 := b.extractLsb' 0 4

/-- The registers `V[0]` to `V[x]`, in order (43_timer_index_memory_keywait.md R142). -/
def State.regsUpTo (s : State) (x : RegIx) : List Byte := s.v.toList.take (x.toNat + 1)

/-- Registers from `V[k]` upward take the bytes of a list, in order (43_timer_index_memory_keywait.md R143). -/
def State.setRegsFrom (s : State) (k : Nat) : List Byte → State
  | [] => s
  | b :: bs => (s.setReg (BitVec.ofNat 4 k) b).setRegsFrom (k + 1) bs

/-- The next answer of a feed and the feed after it: the first one queued, or else the free value `free taken`. -/
def Feed.answer {α : Type} (free : Nat → α) (f : Feed α) : α × Feed α :=
  match f.queued with
  | [] => (free f.taken, { queued := [], taken := f.taken + 1 })
  | a :: rest => (a, { queued := rest, taken := f.taken + 1 })

/-- `Rng.Byte()`: one answer, taken (60_exceptions.md R183). -/
def rngAnswer (s : State) : Byte × State :=
  ((s.rng.answer Config.rngByte).1, { s with rng := (s.rng.answer Config.rngByte).2 })

/-- `Keypad.Held(k)`: bit `k` of the keys down at this query (60_exceptions.md R180). -/
def heldAnswer (s : State) (k : Key) : Bool × State :=
  ((s.levels.answer Config.heldKeys).1.getLsbD k.toNat,
   { s with levels := (s.levels.answer Config.heldKeys).2 })

/-- `Keypad.Event()`: nothing, or a key (60_exceptions.md R181). -/
def eventAnswer (s : State) : Option Key × State :=
  ((s.events.answer Config.keyEvent).1, { s with events := (s.events.answer Config.keyEvent).2 })

end Sys2Proof.Machine
end

