-- ==== Sys2Proof/Machine/Ops.lean ====
section
/-! DEFINITION. The operations shared by the instructions: memory behind its bounds checks, fetch, taking a fault,
control flow, the call stack, the timers, and what the host and the loader do. -/

namespace Sys2Proof.Machine

/-! ## Memory -/

/-- What an address that memory does not list reads as: a glyph byte below 0x050, `MEM_FILL` elsewhere
(20_memory.md R51 to R53; log 1, log 2). -/
def unlistedByte (a : Nat) : Byte := font.getD a memFill

/-- `MEM[a]`, the raw byte without any check (00_scope.md section 7). The search stops at the first address above
`a`. -/
def Memory.byte : Memory → Nat → Byte
  | [], a => unlistedByte a
  | (k, b) :: rest, a => if a = k then b else if a < k then unlistedByte a else Memory.byte rest a

/-- A cell put at the head of a memory, unless it says what an unlisted address reads as anyway. -/
def Memory.consCell (a : Nat) (b : Byte) (m : Memory) : Memory := if b = unlistedByte a then m else (a, b) :: m

/-- `MEM[a] <- b`, raw, keeping the canonical form. -/
def Memory.put : Memory → Nat → Byte → Memory
  | [], a, b => Memory.consCell a b []
  | (k, c) :: rest, a, b =>
    if a < k then Memory.consCell a b ((k, c) :: rest)
    else if a = k then Memory.consCell a b rest
    else (k, c) :: Memory.put rest a b

/-- The canonical form of memory: addresses strictly rise, and no entry says what an unlisted address reads as. -/
def Memory.wf (m : Memory) : Bool :=
  decide (m.Pairwise fun c d => c.1 < d.1) && m.all fun c => c.2 != unlistedByte c.1

/-- Consecutive bytes put from address `a` upward, raw: what the loader does (20_memory.md R54). -/
def Memory.putBytes (m : Memory) (a : Nat) : List Byte → Memory
  | [] => m
  | b :: bs => Memory.putBytes (m.put a b) (a + 1) bs

/-- What ends a step with a fault: `raise OutOfBounds(addr, access)` and `raise UnknownOpcode(op)`
(00_scope.md section 7, 60_exceptions.md R160). -/
inductive Raise where
  | outOfBounds (addr : Nat) (access : Access)
  | unknownOpcode (op : Word)
deriving DecidableEq, Repr

/-- `MemRead(a, 1)`, for a data read or one byte of a fetch (20_memory.md R42, R45). -/
def Memory.read (m : Memory) (access : Access) (a : Nat) : Except Raise Byte :=
  if a ≥ Config.memSize then .error (.outOfBounds a access) else .ok (m.byte a)

/-- `MemWrite(a, 1, b)` (20_memory.md R43). -/
def Memory.write (m : Memory) (a : Nat) (b : Byte) : Except Raise Memory :=
  if a < Config.progBase ∨ a ≥ Config.memSize then .error (.outOfBounds a .write) else .ok (m.put a b)

/-- `n` bytes read from `a` upward; the first address out of bounds raises (20_memory.md R48, R49). -/
def Memory.readBlock (m : Memory) (a : Nat) : Nat → Except Raise (List Byte)
  | 0 => .ok []
  | n + 1 =>
    match m.read .read a with
    | .error e => .error e
    | .ok b =>
      match Memory.readBlock m (a + 1) n with
      | .error e => .error e
      | .ok bs => .ok (b :: bs)

/-- Bytes written from `a` upward; the first address out of bounds raises and then there is no new memory, so nothing
is written (20_memory.md R48, R49). -/
def Memory.writeBlock (m : Memory) (a : Nat) : List Byte → Except Raise Memory
  | [] => .ok m
  | b :: bs =>
    match m.write a b with
    | .error e => .error e
    | .ok m' => Memory.writeBlock m' (a + 1) bs

/-- `MemRead(PC, 2)`: the opcode at `PC`, big-endian, the lower address checked first (20_memory.md R45). -/
def fetch (s : State) : Except Raise Word :=
  match s.mem.read .fetch s.pc.toNat with
  | .error e => .error e
  | .ok hi =>
    match s.mem.read .fetch (s.pc.toNat + 1) with
    | .error e => .error e
    | .ok lo => .ok (opcodeOf hi lo)

/-! ## Taking a fault -/

/-- The record of a fault (10_state.md R24, 60_exceptions.md R161, R162). -/
def Raise.record : Raise → FaultRecord
  | .outOfBounds a access =>
    { kind := .outOfBounds, info := BitVec.ofNat 16 a, infoOvf := decide (a ≥ 0x10000), access := access }
  | .unknownOpcode op => { kind := .unknownOpcode, info := op, infoOvf := false, access := .noAccess }

/-- Taking a fault: `MODE <- Faulted(kind, info, access)`, and nothing else (60_exceptions.md R164, R166). There is
no return from it (R168). -/
def takeFault (e : Raise) (s : State) : State := { s with mode := .faulted e.record }

/-- The end of an instruction that can fault: its state, or the state before it with the fault taken, so that no
write of a faulting instruction takes effect (10_state.md R29). -/
def completeOrFault (s : State) : Except Raise State → Host.Outcome State Fault Refusal
  | .ok t => .next t
  | .error e => .next (takeFault e s)

/-- The code of a fault kind (00_scope.md R4, 60_exceptions.md R161, R162). -/
def FaultKind.code : FaultKind → Nat
  | .outOfBounds => 1
  | .unknownOpcode => 2

/-- The `fault` interface: kind code, info, overflow bit and access; kind 0 while no fault is recorded
(60_exceptions.md R163, 10_state.md R28). DESIGN CHOICE (log 21): the spec says no more of a cleared record than its
kind; that info, the overflow bit and access then show 0, 0 and none is the model's. -/
def faultReport (s : State) : Nat × Word × Bool × Access :=
  match s.mode with
  | .faulted r => (r.kind.code, r.info, r.infoOvf, r.access)
  | .running | .awaitingKey _ => (0, 0, false, .noAccess)

/-! ## Control flow and the call stack -/

/-- `PC <- target` (40_control_transfer.md R80). -/
def State.jump (target : Word) (s : State) : State := { s with pc := target }

/-- `PC <- (PC + 2) mod 65536` (10_state.md R18). -/
def State.advance (s : State) : State := { s with pc := s.pc + 2 }

/-- The skips: `PC + 4` if the condition holds, else `PC + 2` (10_state.md R18). -/
def State.skipIf (c : Bool) (s : State) : State := { s with pc := if c then s.pc + 4 else s.pc + 2 }

/-- The call-stack entry that a value of `SP` names: its low 4 bits, all of it where `SP` is 0 to 15 (log 13). -/
def stackSlot (sp : BitVec 8) : Fin 16 := Fin.ofNat 16 sp.toNat

/-- `STACK[SP] <- value; SP <- (SP + 1) mod 16` (10_state.md R21). -/
def State.push (value : Word) (s : State) : State :=
  { s with stack := s.stack.set (stackSlot s.sp).val value (stackSlot s.sp).isLt
           sp := BitVec.ofNat 8 ((s.sp.toNat + 1) % 16) }

/-- The value of `SP` after a pop: `(SP + 15) mod 16` (10_state.md R21). -/
def poppedSp (sp : BitVec 8) : BitVec 8 := BitVec.ofNat 8 ((sp.toNat + 15) % 16)

/-- The value a pop reads: `STACK[SP]` after `SP` moved; the entry stays (10_state.md R21). -/
def State.popValue (s : State) : Word :=
  s.stack[(stackSlot (poppedSp s.sp)).val]'(stackSlot (poppedSp s.sp)).isLt

/-- `SP <- (SP + 15) mod 16` (10_state.md R21). -/
def State.pop (s : State) : State := { s with sp := poppedSp s.sp }

/-- A flag-writing operation: first `VF <- flag`, then `V[x] <- result` (10_state.md R15). -/
def State.setFlagThenReg (flag : Byte) (x : RegIx) (result : Byte) (s : State) : State :=
  (s.setReg Config.flagReg flag).setReg x result

/-! ## The key wait -/

/-- A key reported to a waiting instruction: `V[x] <- K`, `PC + 2` (43_timer_index_memory_keywait.md R144). -/
def State.deliverKey (x : RegIx) (k : Key) (s : State) : State := (s.setReg x (k.zeroExtend 8)).advance

/-- One poll in `AwaitingKey(x)` (10_state.md R29): a key completes the instruction and the mode becomes `Running`;
no key leaves everything but the keypad's record of the query. -/
def pollAwaitedKey (x : RegIx) (s : State) : State :=
  match (eventAnswer s).1 with
  | some k => { (eventAnswer s).2.deliverKey x k with mode := .running }
  | none => (eventAnswer s).2

/-! ## Timers -/

/-- One timer after one tick: stops at 0 (60_exceptions.md R173). -/
def decTimer (t : Byte) : Byte := if t.toNat > 0 then t - 1 else t

/-- `Tick()`: the action of the Timer Driver (60_exceptions.md R173). -/
def tick (s : State) : State := { s with dt := decTimer s.dt, st := decTimer s.st }

/-- One timer after `n` ticks, in one go. -/
def countDown (n : Nat) (t : Byte) : Byte := if t = 0 then 0 else BitVec.ofNat 8 (t.toNat - n)

/-- `n` ticks in one go (log 9). -/
def tickTimes (n : Nat) (s : State) : State := { s with dt := countDown n s.dt, st := countDown n s.st }

/-- The ticks that fall before the next step, taken from the feed (00_scope.md R2, 70_reset_and_hazards.md R197). -/
def ticksBeforeStep (s : State) : State :=
  tickTimes (s.ticks.answer Config.ticksBefore).1 { s with ticks := (s.ticks.answer Config.ticksBefore).2 }

/-- The `tone` output: 1 exactly when `ST > 0` (60_exceptions.md R174). -/
def tone (s : State) : Bool := decide (s.st.toNat > 0)

/-! ## What the host and the loader do -/

/-- The `reset` event at any time (70_reset_and_hazards.md R190, R193): the whole state of reset; what outside
parties will answer is their own business (log 10, log 19). -/
def resetEvent (s : State) : State :=
  { State.reset with rng := s.rng, levels := s.levels, events := s.events, ticks := s.ticks }

/-- The program loader: byte `j` of the image to `0x200 + j`; it refuses an image of more than 3584 bytes
(20_memory.md R54, 70_reset_and_hazards.md R192). -/
def loadImage (image : List Byte) (s : State) : Option State :=
  if image.length ≤ Config.progMaxLen then some { s with mem := s.mem.putBytes Config.progBase image } else none

/-- An opcode placed where the next step fetches, with the mode in which a step fetches (log 17). -/
def placeOpcode (op : Word) (s : State) : State :=
  { s with mem := s.mem.putBytes s.pc.toNat [highByte op, lowByte op], mode := .running }

end Sys2Proof.Machine
end

