-- ==== Sys2Proof/Machine/ControlTransfer.lean ====
section
/-! DEFINITION. Jump, call, return and the register skips (40_control_transfer.md). -/

namespace Sys2Proof.Machine

/-- `JP nnn` (40_control_transfer.md R80). -/
def execJpNnn (nnn : BitVec 12) (s : State) : Host.Outcome State Fault Refusal :=
  .next (s.jump (addrImm nnn))

/-- `JP V0, nnn`: the sum is not reduced modulo 4096 (40_control_transfer.md R81). -/
def execJpV0Nnn (nnn : BitVec 12) (s : State) : Host.Outcome State Fault Refusal :=
  .next (s.jump (addrImm nnn + (s.reg 0).zeroExtend 16))

/-- `CALL nnn`: pushes its own address (40_control_transfer.md R82). -/
def execCallNnn (nnn : BitVec 12) (s : State) : Host.Outcome State Fault Refusal :=
  .next ((s.push s.pc).jump (addrImm nnn))

/-- `RET`: resumes after the call whose address it pops (40_control_transfer.md R83). -/
def execRet (s : State) : Host.Outcome State Fault Refusal :=
  .next (s.pop.jump (s.popValue + 2))

/-- `SE Vx, kk` (40_control_transfer.md R84). -/
def execSeVxKk (x : RegIx) (kk : Byte) (s : State) : Host.Outcome State Fault Refusal :=
  .next (s.skipIf (s.reg x == kk))

/-- `SNE Vx, kk` (40_control_transfer.md R85). -/
def execSneVxKk (x : RegIx) (kk : Byte) (s : State) : Host.Outcome State Fault Refusal :=
  .next (s.skipIf (s.reg x != kk))

/-- `SE Vx, Vy` (40_control_transfer.md R86). -/
def execSeVxVy (x y : RegIx) (s : State) : Host.Outcome State Fault Refusal :=
  .next (s.skipIf (s.reg x == s.reg y))

/-- `SNE Vx, Vy` (40_control_transfer.md R87). -/
def execSneVxVy (x y : RegIx) (s : State) : Host.Outcome State Fault Refusal :=
  .next (s.skipIf (s.reg x != s.reg y))

end Sys2Proof.Machine
end

