-- ==== Sys2Proof/Machine/Flags.lean ====
section
/-! DEFINITION. The flag computations: the values the flag-writing operations put into `VF` (10_state.md R14), each
from operand values read before the instruction (R15). -/

namespace Sys2Proof.Machine

/-- `bool_to_bit(c)`: 1 when `c` holds, else 0 (00_scope.md section 7). -/
def boolToBit (c : Bool) : Byte := if c then 1 else 0

/-- Carry of `8xy4`: 1 if the sum is above 255 (41_load_arith_logic.md R106). -/
def carryFlag (a b : Byte) : Byte := boolToBit (decide (a.toNat + b.toNat > 255))

/-- Flag of `8xy5`, and of `8xy7` with the operands exchanged: 1 if the minuend is strictly greater
(41_load_arith_logic.md R107, R108; 90_conflicts.md C2). -/
def greaterFlag (a b : Byte) : Byte := boolToBit (decide (a.toNat > b.toNat))

/-- Flag of `8xy6`: bit 0 of the old value (41_load_arith_logic.md R109). -/
def lowBitFlag (a : Byte) : Byte := boolToBit (a.getLsbD 0)

/-- Flag of `8xyE`: bit 7 of the old value (41_load_arith_logic.md R110). -/
def highBitFlag (a : Byte) : Byte := boolToBit (a.getLsbD 7)

end Sys2Proof.Machine
end

