-- ==== Sys2Proof/Machine/IndexRandomDisplayKeypad.lean ====
section
/-! DEFINITION. Load address register, random, draw, clear and the keypad skips
(42_index_random_display_keypad.md). -/

namespace Sys2Proof.Machine

/-- `LD I, nnn` (42_index_random_display_keypad.md R120). -/
def execLdINnn (nnn : BitVec 12) (s : State) : Host.Outcome State Fault Refusal :=
  .next { s with i := addrImm nnn }.advance

/-- `RND Vx, kk`: one answer of the random source is taken, whatever `kk` (42_index_random_display_keypad.md R121). -/
def execRndVxKk (x : RegIx) (kk : Byte) (s : State) : Host.Outcome State Fault Refusal :=
  .next ((rngAnswer s).2.setReg x ((rngAnswer s).1 &&& kk)).advance

/-- The effect of a draw whose sprite rows have been read: the blend, then `VF` takes the collision bit
(42_index_random_display_keypad.md R122). -/
def drawRows (x y : RegIx) (rows : List Byte) (s : State) : State :=
  { s with display := (xorBlit s.display (s.reg x) (s.reg y) rows).1 }.setReg Config.flagReg
    (boolToBit (xorBlit s.display (s.reg x) (s.reg y) rows).2)

/-- `DRW Vx, Vy, n` (42_index_random_display_keypad.md R122). -/
def execDrwVxVyN (x y : RegIx) (n : BitVec 4) (s : State) : Host.Outcome State Fault Refusal :=
  completeOrFault s <|
    match s.mem.readBlock (s.effectiveAddress 0) n.toNat with
    | .error e => .error e
    | .ok rows => .ok (drawRows x y rows s).advance

/-- `CLS` (42_index_random_display_keypad.md R123). -/
def execCls (s : State) : Host.Outcome State Fault Refusal :=
  .next { s with display := clearedGrid }.advance

/-- `SKP Vx` (42_index_random_display_keypad.md R124). -/
def execSkpVx (x : RegIx) (s : State) : Host.Outcome State Fault Refusal :=
  .next ((heldAnswer s (lowDigit (s.reg x))).2.skipIf (heldAnswer s (lowDigit (s.reg x))).1)

/-- `SKNP Vx` (42_index_random_display_keypad.md R125). -/
def execSknpVx (x : RegIx) (s : State) : Host.Outcome State Fault Refusal :=
  .next ((heldAnswer s (lowDigit (s.reg x))).2.skipIf (!(heldAnswer s (lowDigit (s.reg x))).1))

end Sys2Proof.Machine
end

