-- ==== Sys2Proof/Machine/LoadArithLogic.lean ====
section
/-! DEFINITION. Register load, arithmetic and logic (41_load_arith_logic.md). -/

namespace Sys2Proof.Machine

/-- `LD Vx, kk` (41_load_arith_logic.md R100). -/
def execLdVxKk (x : RegIx) (kk : Byte) (s : State) : Host.Outcome State Fault Refusal :=
  .next (s.setReg x kk).advance

/-- `LD Vx, Vy` (41_load_arith_logic.md R101). -/
def execLdVxVy (x y : RegIx) (s : State) : Host.Outcome State Fault Refusal :=
  .next (s.setReg x (s.reg y)).advance

/-- `ADD Vx, kk`: wraps, writes no flag (41_load_arith_logic.md R102). -/
def execAddVxKk (x : RegIx) (kk : Byte) (s : State) : Host.Outcome State Fault Refusal :=
  .next (s.setReg x (s.reg x + kk)).advance

/-- `OR Vx, Vy` (41_load_arith_logic.md R103). -/
def execOrVxVy (x y : RegIx) (s : State) : Host.Outcome State Fault Refusal :=
  .next (s.setReg x (s.reg x ||| s.reg y)).advance

/-- `AND Vx, Vy` (41_load_arith_logic.md R104). -/
def execAndVxVy (x y : RegIx) (s : State) : Host.Outcome State Fault Refusal :=
  .next (s.setReg x (s.reg x &&& s.reg y)).advance

/-- `XOR Vx, Vy` (41_load_arith_logic.md R105). -/
def execXorVxVy (x y : RegIx) (s : State) : Host.Outcome State Fault Refusal :=
  .next (s.setReg x (s.reg x ^^^ s.reg y)).advance

/-- `ADD Vx, Vy` (41_load_arith_logic.md R106). -/
def execAddVxVy (x y : RegIx) (s : State) : Host.Outcome State Fault Refusal :=
  .next (s.setFlagThenReg (carryFlag (s.reg x) (s.reg y)) x (s.reg x + s.reg y)).advance

/-- `SUB Vx, Vy` (41_load_arith_logic.md R107). -/
def execSubVxVy (x y : RegIx) (s : State) : Host.Outcome State Fault Refusal :=
  .next (s.setFlagThenReg (greaterFlag (s.reg x) (s.reg y)) x (s.reg x - s.reg y)).advance

/-- `SUBN Vx, Vy` (41_load_arith_logic.md R108). -/
def execSubnVxVy (x y : RegIx) (s : State) : Host.Outcome State Fault Refusal :=
  .next (s.setFlagThenReg (greaterFlag (s.reg y) (s.reg x)) x (s.reg y - s.reg x)).advance

/-- `SHR Vx`: logical, `y` is ignored (41_load_arith_logic.md R109, 30_encoding.md R73). -/
def execShrVx (x : RegIx) (s : State) : Host.Outcome State Fault Refusal :=
  .next (s.setFlagThenReg (lowBitFlag (s.reg x)) x (s.reg x >>> 1)).advance

/-- `SHL Vx`: not a rotate, `y` is ignored (41_load_arith_logic.md R110, 30_encoding.md R73). -/
def execShlVx (x : RegIx) (s : State) : Host.Outcome State Fault Refusal :=
  .next (s.setFlagThenReg (highBitFlag (s.reg x)) x (s.reg x <<< 1)).advance

end Sys2Proof.Machine
end

