-- ==== Sys2Proof/Machine/TimerIndexMemoryKeywait.lean ====
section
/-! DEFINITION. Timer access, address arithmetic, memory transfer and wait-for-key
(43_timer_index_memory_keywait.md). -/

namespace Sys2Proof.Machine

/-- `LD Vx, DT` (43_timer_index_memory_keywait.md R135). -/
def execLdVxDt (x : RegIx) (s : State) : Host.Outcome State Fault Refusal :=
  .next (s.setReg x s.dt).advance

/-- `LD DT, Vx` (43_timer_index_memory_keywait.md R136). -/
def execLdDtVx (x : RegIx) (s : State) : Host.Outcome State Fault Refusal :=
  .next { s with dt := s.reg x }.advance

/-- `LD ST, Vx` (43_timer_index_memory_keywait.md R137). -/
def execLdStVx (x : RegIx) (s : State) : Host.Outcome State Fault Refusal :=
  .next { s with st := s.reg x }.advance

/-- `ADD I, Vx`: all 16 bits are kept, no flag (43_timer_index_memory_keywait.md R138). -/
def execAddIVx (x : RegIx) (s : State) : Host.Outcome State Fault Refusal :=
  .next { s with i := s.i + (s.reg x).zeroExtend 16 }.advance

/-- `LD F, Vx`: glyph `d` is at `5 * d` (43_timer_index_memory_keywait.md R140). -/
def execLdFVx (x : RegIx) (s : State) : Host.Outcome State Fault Refusal :=
  .next { s with i := BitVec.ofNat 16 (glyphSize * (lowDigit (s.reg x)).toNat) }.advance

/-- The three decimal digits of a byte, hundreds first (43_timer_index_memory_keywait.md R141). -/
def bcdDigits (b : Byte) : List Byte :=
  [BitVec.ofNat 8 (b.toNat / 100), BitVec.ofNat 8 (b.toNat / 10 % 10), BitVec.ofNat 8 (b.toNat % 10)]

/-- Bytes stored from `I` upward, then `PC + 2`; nothing of it on a fault (20_memory.md R49). -/
def storeAtI (bs : List Byte) (s : State) : Host.Outcome State Fault Refusal :=
  completeOrFault s <|
    match s.mem.writeBlock (s.effectiveAddress 0) bs with
    | .error e => .error e
    | .ok m => .ok { s with mem := m }.advance

/-- `LD B, Vx` (43_timer_index_memory_keywait.md R141). -/
def execLdBVx (x : RegIx) (s : State) : Host.Outcome State Fault Refusal :=
  storeAtI (bcdDigits (s.reg x)) s

/-- `LD [I], Vx` (43_timer_index_memory_keywait.md R142). -/
def execLdIndIVx (x : RegIx) (s : State) : Host.Outcome State Fault Refusal :=
  storeAtI (s.regsUpTo x) s

/-- `LD Vx, [I]` (43_timer_index_memory_keywait.md R143). -/
def execLdVxIndI (x : RegIx) (s : State) : Host.Outcome State Fault Refusal :=
  completeOrFault s <|
    match s.mem.readBlock (s.effectiveAddress 0) (x.toNat + 1) with
    | .error e => .error e
    | .ok bs => .ok (s.setRegsFrom 0 bs).advance

/-- `LD Vx, K`, the step that fetches it: a key completes it, no key starts the wait
(43_timer_index_memory_keywait.md R144). -/
def execLdVxK (x : RegIx) (s : State) : Host.Outcome State Fault Refusal :=
  .next <|
    match (eventAnswer s).1 with
    | some k => (eventAnswer s).2.deliverKey x k
    | none => { (eventAnswer s).2 with mode := .awaitingKey x }

end Sys2Proof.Machine
end

