-- ==== Sys2Proof/Machine/UnitStep.lean ====
section
/-! DEFINITION. One step of the Execution Unit (10_state.md R29). -/

namespace Sys2Proof.Machine

/-- Running an opcode: its instruction, or UnknownOpcode where it selects none (10_state.md R29, 30_encoding.md R72). -/
def runOpcode (op : Word) (s : State) : Host.Outcome State Fault Refusal :=
  match dispatch op with
  | some i => exec i s
  | none => .next (takeFault (.unknownOpcode op) s)

/-- `Step()` of the Execution Unit: a no-op when faulted, one poll when a key is awaited, else one instruction
(10_state.md R29). -/
def unitStep (s : State) : Host.Outcome State Fault Refusal :=
  match s.mode with
  | .faulted _ => .next s
  | .awaitingKey x => .next (pollAwaitedKey x s)
  | .running =>
    match fetch s with
    | .error e => .next (takeFault e s)
    | .ok op => runOpcode op s

end Sys2Proof.Machine
end

