-- ==== Sys2Proof/Machine/Step.lean ====
section
/-! DEFINITION. One step of the machine, and how an instruction is placed where the next step fetches. -/

namespace Sys2Proof.Machine

/-- One step of the machine. The Timer Driver's ticks that fall between the step before and this one come first
(00_scope.md R2, log 9), then one step of the Execution Unit (10_state.md R29). -/
def step (s : State) : Host.Outcome State Fault Refusal := unitStep (ticksBeforeStep s)

/-- The instruction with bits `w` stored where the next step fetches, high byte at `PC` (20_memory.md R45), in the
mode in which a step fetches; nothing else changes (log 17). -/
def State.withFetchWord (s : State) (nbits w : Nat) : State := placeOpcode (tableWord nbits w) s

end Sys2Proof.Machine
end

