-- ==== Sys2Proof/Safety.lean ====
section
/-! DEFINITION. The terms claims are stated in: what a safe run is, the invariants of the machine, and what two states
have in common. -/

namespace Sys2Proof.Machine

/-- No fault has been taken: a faulted state is never a successful final state (60_exceptions.md R167,
70_reset_and_hazards.md R204). -/
def State.Safe (s : State) : Prop := ∀ r, s.mode ≠ .faulted r

/-- The address an OutOfBounds record stands for: `info`, plus 65536 when the overflow bit is set (10_state.md R24). -/
def FaultRecord.address (r : FaultRecord) : Nat := r.info.toNat + if r.infoOvf then 0x10000 else 0

/-- The record of an OutOfBounds at address `a`: `info` is `a mod 65536`, the overflow bit is set from 65536 up
(60_exceptions.md R161, 10_state.md R24). -/
def outOfBoundsRecord (a : Nat) (access : Access) : FaultRecord where
  kind    := .outOfBounds
  info    := BitVec.ofNat 16 (a % 65536)
  infoOvf := decide (65536 ≤ a)
  access  := access

/-- An address outside the window of an access kind (60_exceptions.md R161). -/
def outsideWindow (access : Access) (a : Nat) : Prop :=
  match access with
  | .fetch | .read => Config.memSize ≤ a
  | .write => a < Config.progBase ∨ Config.memSize ≤ a
  | .noAccess => False

/-- A record that the rules can produce: an opcode that selects no operation, or an address outside the window of
its access kind (60_exceptions.md R161, R162). -/
def FaultRecord.Legal (r : FaultRecord) : Prop :=
  match r.kind with
  | .outOfBounds => outsideWindow r.access r.address
  | .unknownOpcode => dispatch r.info = none ∧ r.infoOvf = false ∧ r.access = .noAccess

/-- A mode whose fault record, if it has one, is legal. -/
def Mode.Legal : Mode → Prop
  | .running => True
  | .awaitingKey _ => True
  | .faulted r => r.Legal

/-- The invariant of the machine: memory is canonical and lists only addresses of the program region, so the
reserved region reads as at reset (20_memory.md R41); `SP` is 0 to 15 (10_state.md R21); the fault record is one the
rules produce (R24). -/
structure State.Inv (s : State) : Prop where
  memWf       : s.mem.wf = true
  memWritable : ∀ c ∈ s.mem, Config.progBase ≤ c.1 ∧ c.1 < Config.memSize
  spBound     : s.sp.toNat < 16
  modeLegal   : s.mode.Legal

/-- The bounds that keep `PC` from wrapping (10_state.md R20): `PC` is at most 0x10FE; every saved address, and `PC`
while a key is awaited, is that of an instruction that was fetched. -/
structure State.PcBounded (s : State) : Prop where
  pc      : s.pc.toNat ≤ 0x10FE
  stack   : ∀ w ∈ s.stack.toList, w.toNat ≤ 0xFFE
  waiting : ∀ x, s.mode = .awaitingKey x → s.pc.toNat ≤ 0xFFE

/-! ## Frames: what two states have in common -/

/-- Every general register but those named. -/
def sameRegsExcept (written : List RegIx) (s t : State) : Prop := ∀ r, r ∉ written → t.reg r = s.reg r

/-- Every byte of memory, through the read of one byte. -/
def sameMemory (s t : State) : Prop := ∀ a, t.mem.byte a = s.mem.byte a

/-- Every byte of memory outside `n` bytes from `a` upward. -/
def sameMemoryOutside (a n : Nat) (s t : State) : Prop := ∀ b, b < a ∨ a + n ≤ b → t.mem.byte b = s.mem.byte b

/-- `SP` and every entry of the call stack. -/
def sameStack (s t : State) : Prop := t.sp = s.sp ∧ t.stack = s.stack

/-- Both timers. -/
def sameTimers (s t : State) : Prop := t.dt = s.dt ∧ t.st = s.st

/-- The display and everything the outside parties will answer. -/
def sameDevices (s t : State) : Prop :=
  t.display = s.display ∧ t.rng = s.rng ∧ t.levels = s.levels ∧ t.events = s.events ∧ t.ticks = s.ticks

/-- Everything but the general registers and `PC`: `I`, call stack, timers, memory, mode and devices. -/
def sameBeyondRegs (s t : State) : Prop :=
  t.i = s.i ∧ sameStack s t ∧ sameTimers s t ∧ sameMemory s t ∧ t.mode = s.mode ∧ sameDevices s t

/-- Everything but the byte memory and `PC`: registers, `I`, call stack, timers, mode and devices. -/
def sameBeyondMemory (s t : State) : Prop :=
  sameRegsExcept [] s t ∧ t.i = s.i ∧ sameStack s t ∧ sameTimers s t ∧ t.mode = s.mode ∧ sameDevices s t

/-- `PC` went to the next instruction: `(PC + 2) mod 65536` (10_state.md R18). -/
def advanced (s t : State) : Prop := t.pc.toNat = (s.pc.toNat + 2) % 65536

/-- `PC` skipped the next instruction if the condition holds: `PC + 4`, else `PC + 2` (10_state.md R18). -/
def skipped (c : Prop) (s t : State) : Prop :=
  (c → t.pc.toNat = (s.pc.toNat + 4) % 65536) ∧ (¬ c → t.pc.toNat = (s.pc.toNat + 2) % 65536)

/-! ## Answers from outside -/

/-- The next answer of a feed is `a`: the first one queued, or, when none is, the free value for this query. -/
def Feed.NextIs {α : Type} (free : Nat → α) (f : Feed α) (a : α) : Prop :=
  f.queued.head? = some a ∨ f.queued = [] ∧ a = free f.taken

/-- A feed after one answer was taken. -/
def Feed.consumed {α : Type} (f : Feed α) : Feed α := { queued := f.queued.tail, taken := f.taken + 1 }

/-! ## Which registers an instruction reads and writes -/

/-- The registers `V[0]` to `V[x]`. -/
def regsTo (x : RegIx) : List RegIx := (List.range (x.toNat + 1)).map (BitVec.ofNat 4)

/-- The general registers an instruction reads (10_state.md R12 and its table). -/
def readsRegs : Instr → List RegIx
  | .cls | .ret | .jpNnn _ | .callNnn _ | .ldINnn _ | .ldVxKk _ _ | .rndVxKk _ _ | .ldVxDt _ | .ldVxK _
  | .ldVxIndI _ => []
  | .seVxKk x _ | .sneVxKk x _ | .addVxKk x _ | .shrVx x _ | .shlVx x _ | .skpVx x | .sknpVx x | .ldDtVx x
  | .ldStVx x | .addIVx x | .ldFVx x | .ldBVx x => [x]
  | .seVxVy x y | .sneVxVy x y | .orVxVy x y | .andVxVy x y | .xorVxVy x y | .addVxVy x y | .subVxVy x y
  | .subnVxVy x y | .drwVxVyN x y _ => [x, y]
  | .ldVxVy _ y => [y]
  | .jpV0Nnn _ => [0]
  | .ldIndIVx x => regsTo x

/-- The general registers an instruction writes (10_state.md R12 and its table, R14). -/
def writesRegs : Instr → List RegIx
  | .cls | .ret | .jpNnn _ | .callNnn _ | .seVxKk _ _ | .sneVxKk _ _ | .seVxVy _ _ | .sneVxVy _ _ | .ldINnn _
  | .jpV0Nnn _ | .skpVx _ | .sknpVx _ | .ldDtVx _ | .ldStVx _ | .addIVx _ | .ldFVx _ | .ldBVx _
  | .ldIndIVx _ => []
  | .ldVxKk x _ | .addVxKk x _ | .ldVxVy x _ | .orVxVy x _ | .andVxVy x _ | .xorVxVy x _ | .rndVxKk x _
  | .ldVxDt x | .ldVxK x => [x]
  | .addVxVy x _ | .subVxVy x _ | .shrVx x _ | .subnVxVy x _ | .shlVx x _ => [Config.flagReg, x]
  | .drwVxVyN _ _ _ => [Config.flagReg]
  | .ldVxIndI x => regsTo x

/-! ## Runs of instructions -/

/-- Instructions executed one after another, if each answers a next state. -/
def execAll : List Instr → State → Option State
  | [], s => some s
  | i :: is, s =>
    match exec i s with
    | .next t => execAll is t
    | .fault _ => none
    | .refused _ => none

end Sys2Proof.Machine
end

