-- ==== Sys2Proof/Certificates/Slice0/Obligations.lean ====
section
/-! DEFINITION. The statements about the model, for the provers. Each docstring names the rules of spec/ it
formalises. Where a clause rests on a decision of the spec (marked D<n> there) or on a choice of the model, it says so. -/

open Sys2Proof Sys2Proof.Machine

/-! ## Encoding and decoding -/

/-- Words written out from the patterns of 30_encoding.md R66 (vectors D-E1, D-E2, D-E5 to D-E10, D-E12 of
95_test_vectors.md), high byte first, decode to the instructions they stand for, and four undefined ones are rejected.
The opcode numbers are the spec's decision D1. -/
def Obligations.WrittenOutWordsDecode : Prop :=
  decode [0xD1, 0x2F] = .ok (.drwVxVyN 1 2 15, []) ∧
  decode [0x8A, 0xB4] = .ok (.addVxVy 10 11, []) ∧
  decode [0x00, 0xEE] = .ok (.ret, []) ∧
  decode [0x9A, 0xB0] = .ok (.sneVxVy 10 11, []) ∧
  decode [0x81, 0xF6] = .ok (.shrVx 1 15, []) ∧
  decode [0xF1, 0x65] = .ok (.ldVxIndI 1, []) ∧
  decode [0x12, 0x34] = .ok (.jpNnn 0x234, []) ∧
  decode [0xC3, 0x0F] = .ok (.rndVxKk 3 0x0F, []) ∧
  decode [0x01, 0xEE] = .error (.unknownOpcode 0x01EE) ∧
  decode [0x51, 0x21] = .error (.unknownOpcode 0x5121) ∧
  decode [0x81, 0x2F] = .error (.unknownOpcode 0x812F) ∧
  decode [0xE1, 0x9F] = .error (.unknownOpcode 0xE19F)

/-- Decode and encode agree (30_encoding.md R61, R66): the bytes of every instruction of the machine, every operand at
every value, followed by any bytes, decode to that instruction and leave those bytes. The opcode numbers are D1. -/
def Obligations.DecodeUndoesEncode : Prop :=
  ∀ (i : Instr) (rest : List Byte), i.wellFormed = true → decode (encodeBytes i ++ rest) = .ok (i, rest)

/-- The other direction: what decodes to an instruction is that instruction's bytes, and the instruction belongs to
the machine (30_encoding.md R61, R66). -/
def Obligations.DecodedBytesAreTheEncoding : Prop :=
  ∀ (bs rest : List Byte) (i : Instr), decode bs = .ok (i, rest) →
    bs = encodeBytes i ++ rest ∧ i.wellFormed = true

/-- 30_encoding.md R66: an opcode selects row `r` of the opcode table exactly when `op & mask(r) == match(r)`, and no
two rows match the same opcode. The dispatch tree is written from R76, the table from R66. Row 1 rests on `HAS_CLS` (D3, log 3), the numbers on D1. -/
def Obligations.DispatchSelectsTheMatchingRow : Prop :=
  ∀ (op : Word) (r : OpcodeRow), r ∈ opcodeTable →
    ((∃ i, dispatch op = some i ∧ i.rowNumber = r.number) ↔ op &&& r.mask = r.pattern) ∧
    (∀ q, q ∈ opcodeTable → op &&& r.mask = r.pattern → op &&& q.mask = q.pattern → q = r)

/-- 30_encoding.md R67 to R72: the opcodes that select no operation are exactly those of R72's table, class by class.
The numbers and the extent of the set are the spec's decisions D1, D2, D3, D4. -/
def Obligations.UndefinedOpcodesAreExactlyTheTable : Prop :=
  ∀ op : Word, dispatch op = none ↔
    (op.toNat / 4096 = 0x0 ∧ op.toNat ≠ 0x00E0 ∧ op.toNat ≠ 0x00EE) ∨
    (op.toNat / 4096 = 0x5 ∧ op.toNat % 16 ≠ 0) ∨
    (op.toNat / 4096 = 0x8 ∧ op.toNat % 16 ∈ [0x8, 0x9, 0xA, 0xB, 0xC, 0xD, 0xF]) ∨
    (op.toNat / 4096 = 0x9 ∧ op.toNat % 16 ≠ 0) ∨
    (op.toNat / 4096 = 0xE ∧ op.toNat % 256 ∉ [0x9E, 0xA1]) ∨
    (op.toNat / 4096 = 0xF ∧ op.toNat % 256 ∉ [0x07, 0x0A, 0x15, 0x18, 0x1E, 0x29, 0x33, 0x55, 0x65])

/-- 42_index_random_display_keypad.md R123, 30_encoding.md R67: with `HAS_CLS` false the opcode 0x00E0 selects no
operation and every other opcode selects what it selects with `HAS_CLS` true (decision D3). -/
def Obligations.WithoutClsOnlyItsOpcodeIsUndefined : Prop :=
  ∀ op : Word, dispatchWith false op = if op.toNat = 0x00E0 then none else dispatchWith true op

/-- 30_encoding.md R62: the six fields, as arithmetic on the opcode. -/
def Obligations.FieldsAreTheOpcodesSlices : Prop :=
  ∀ op : Word,
    (fieldsOf op).addr.toNat = op.toNat % 4096 ∧
    (fieldsOf op).nibble.toNat = op.toNat % 16 ∧
    (fieldsOf op).x.toNat = op.toNat / 256 % 16 ∧
    (fieldsOf op).y.toNat = op.toNat / 16 % 16 ∧
    (fieldsOf op).byte.toNat = op.toNat % 256 ∧
    (fieldsOf op).opclass.toNat = op.toNat / 4096

/-! ## The step, faults and modes -/

/-- 10_state.md R29, 20_memory.md R45: when the machine is running and the two bytes at `PC`, high byte first, decode
to an instruction, a step is the ticks that fall before it (`ticksBeforeStep`, log 9) and then that instruction. -/
def Obligations.StepRunsTheDecodedInstruction : Prop :=
  ∀ (s : State) (i : Instr), s.mode = .running → s.pc.toNat + 1 < 0x1000 →
    decode [s.mem.byte s.pc.toNat, s.mem.byte (s.pc.toNat + 1)] = .ok (i, []) →
    step s = exec i (ticksBeforeStep s)

/-- The word that `withFetchWord` places is the instruction the very next step after reset runs (log 17), after the
ticks before the step (`ticksBeforeStep`), the model's form, log 9. -/
def Obligations.PlacedWordRunsFirst : Prop :=
  ∀ (nbits w : Nat) (i : Instr), decodeTableWord nbits w = some i →
    step (State.reset.withFetchWord nbits w) = exec i (ticksBeforeStep (State.reset.withFetchWord nbits w))

/-- 70_reset_and_hazards.md R191: the entry address is the constant 0x200, and the first instruction executed after
reset, whatever memory the loader left, is the one with its high byte at 0x200 and its low byte at 0x201; that ticks
come before the step (`ticksBeforeStep`) is the model's form, log 9. -/
def Obligations.FirstInstructionIsAt0x200 : Prop :=
  State.reset.pc.toNat = 0x200 ∧ Config.progBase = 0x200 ∧
  ∀ (m : Memory) (i : Instr), decode [m.byte 0x200, m.byte 0x201] = .ok (i, []) →
    step { State.reset with mem := m } = exec i (ticksBeforeStep { State.reset with mem := m })

/-- 00_scope.md R2, 60_exceptions.md R173, 70_reset_and_hazards.md R197: what happens before a step is the next number
of whole ticks, one after another, taken from the feed; the number is free (log 9). -/
def Obligations.WholeTicksComeBeforeAStep : Prop :=
  ∀ (s : State) (n : Nat), s.ticks.NextIs Config.ticksBefore n →
    ticksBeforeStep s = { Nat.iterate tick n s with ticks := s.ticks.consumed }

/-- 60_exceptions.md R173: a tick decrements each timer that is above 0, on its own, and changes nothing else. That one
tick serves both timers is decision D21. -/
def Obligations.TickDecrementsEachTimerToZero : Prop :=
  ∀ s : State, (tick s).dt.toNat = s.dt.toNat - 1 ∧ (tick s).st.toNat = s.st.toNat - 1 ∧
    sameRegsExcept [] s (tick s) ∧ (tick s).i = s.i ∧ (tick s).pc = s.pc ∧ sameStack s (tick s) ∧
    sameMemory s (tick s) ∧ (tick s).mode = s.mode ∧ sameDevices s (tick s)

/-- 20_memory.md R45, 60_exceptions.md R161, R164, R165: with `PC` at 0xFFF or above the fetch raises OutOfBounds for
the first of `PC`, `PC + 1` that does not exist, and taking the fault changes nothing but the mode. Decisions D5, D19,
D20, D29. The state it is taken in is that after the ticks before the step (`ticksBeforeStep`: timers and ticks feed),
the model's form, log 9. -/
def Obligations.FetchPastTheEndFaults : Prop :=
  ∀ s : State, s.mode = .running → 0xFFF ≤ s.pc.toNat →
    step s = .next { ticksBeforeStep s with mode := .faulted (outOfBoundsRecord (max s.pc.toNat 0x1000) .fetch) }

/-- 30_encoding.md R72, 60_exceptions.md R162, R164: an opcode that selects no operation raises UnknownOpcode with the
raw opcode, and taking the fault changes nothing but the mode. The record's layout is decision D20; that its overflow
bit is 0 is the model's inference, log 20. The state it is taken in is that after the ticks before the step
(`ticksBeforeStep`: timers and ticks feed), the model's form, log 9. -/
def Obligations.UnknownOpcodeFaultsAndChangesOnlyTheMode : Prop :=
  ∀ (s : State) (op : Word), s.mode = .running → s.pc.toNat + 1 < 0x1000 →
    decode [s.mem.byte s.pc.toNat, s.mem.byte (s.pc.toNat + 1)] = .error (.unknownOpcode op) →
    step s = .next { ticksBeforeStep s with mode := .faulted ⟨.unknownOpcode, op, false, .noAccess⟩ }

/-- 60_exceptions.md R166, R168, R169, R175: in `Faulted` a step changes nothing but what the ticks before it do to the
timers, so the record is never overwritten and the timers run on. Decisions D20, D21; that ticks come before the step
(`ticksBeforeStep`) is the model's form, log 9. -/
def Obligations.FaultedMachineOnlyTicks : Prop :=
  ∀ (s : State) (r : FaultRecord), s.mode = .faulted r →
    ∃ t, step s = .next t ∧ t.mode = .faulted r ∧ sameRegsExcept [] s t ∧ t.i = s.i ∧ t.pc = s.pc ∧
      sameStack s t ∧ sameMemory s t ∧ t.dt = (ticksBeforeStep s).dt ∧ t.st = (ticksBeforeStep s).st ∧
      t.display = s.display ∧ t.rng = s.rng ∧ t.levels = s.levels ∧ t.events = s.events ∧
      t.ticks = s.ticks.consumed

/-- 10_state.md R29, 43_timer_index_memory_keywait.md R144, 60_exceptions.md R187: while a key is awaited a step polls
the keypad once. A key goes to `V[x]`, `PC` advances and the mode is `Running`; no key leaves registers, `PC` and
mode. The poll per step is decision D23, the answer a free value (log 8). The clauses on `DT`, `ST` and the ticks feed
are those of the ticks before the step (`ticksBeforeStep`), the model's form, log 9. -/
def Obligations.AwaitedKeyIsDeliveredOrPolledAgain : Prop :=
  ∀ (s : State) (x : RegIx) (e : Option Key), s.mode = .awaitingKey x → s.events.NextIs Config.keyEvent e →
    ∃ t, step s = .next t ∧ t.i = s.i ∧ sameStack s t ∧ sameMemory s t ∧ t.display = s.display ∧
      t.rng = s.rng ∧ t.levels = s.levels ∧ t.events = s.events.consumed ∧ t.ticks = s.ticks.consumed ∧
      t.dt = (ticksBeforeStep s).dt ∧ t.st = (ticksBeforeStep s).st ∧
      (∀ k, e = some k → (t.reg x).toNat = k.toNat ∧ sameRegsExcept [x] s t ∧ advanced s t ∧ t.mode = .running) ∧
      (e = none → sameRegsExcept [] s t ∧ t.pc = s.pc ∧ t.mode = .awaitingKey x)

/-- No step of this machine stops it: faults are states (60_exceptions.md R166, decision D20, log 11), and every
opcode, mode and input has its effect. -/
def Obligations.EveryStepAnswersANextState : Prop := ∀ s : State, ∃ t, step s = .next t

/-- 10_state.md R24, 60_exceptions.md R161 to R163: what the fault interface reports for each fault. Kind 0 without a
fault is R28; nothing is stated of the other fields then, which are the model's choice (log 21). The codes and the
layout are decision D20. -/
def Obligations.FaultReportShowsKindInfoAndAccess : Prop :=
  (∀ (s : State) (a : Nat) (access : Access), a < 0x10000 →
    faultReport (takeFault (.outOfBounds a access) s) = (1, BitVec.ofNat 16 a, false, access)) ∧
  (∀ (s : State) (a : Nat) (access : Access), 0x10000 ≤ a →
    faultReport (takeFault (.outOfBounds a access) s) = (1, BitVec.ofNat 16 (a % 0x10000), true, access)) ∧
  (∀ (s : State) (op : Word), faultReport (takeFault (.unknownOpcode op) s) = (2, op, false, .noAccess)) ∧
  (∀ s : State, s.Safe → (faultReport s).1 = 0)

/-! ## Reset, the loader and invariants -/

/-- 10_state.md R28: the reset values. The bytes of memory rest on decisions D6 and D7 (log 1, log 2), the call stack
and the mode on D25, the display on D18. -/
def Obligations.ResetHasTheStatedValues : Prop :=
  (∀ x, State.reset.reg x = 0) ∧ State.reset.i = 0 ∧ State.reset.pc = 0x200 ∧ State.reset.sp = 0 ∧
  (∀ j (h : j < 16), State.reset.stack[j] = 0) ∧ State.reset.dt = 0 ∧ State.reset.st = 0 ∧
  State.reset.mode = .running ∧ (faultReport State.reset).1 = 0 ∧ tone State.reset = false ∧
  (∀ row col, pixel State.reset.display row col = false) ∧
  (∀ a, a < 80 → State.reset.mem.byte a = font.getD a 0) ∧ font.length = 80 ∧
  (∀ a, 80 ≤ a → State.reset.mem.byte a = 0)

/-- 70_reset_and_hazards.md R190, R193: a reset at any time, in any mode, gives the whole construction state of the
core, and a loaded program is gone. Decision D25; that the outside parties go on with their answers is log 10 and
log 19. -/
def Obligations.ResetEventRestoresTheConstructionState : Prop :=
  ∀ s : State, ∀ t, t = resetEvent s →
    t.v = State.reset.v ∧ t.i = State.reset.i ∧ t.pc = State.reset.pc ∧ t.sp = State.reset.sp ∧
    t.stack = State.reset.stack ∧ t.dt = State.reset.dt ∧ t.st = State.reset.st ∧ t.mem = State.reset.mem ∧
    t.mode = .running ∧ t.rng = s.rng ∧ t.levels = s.levels ∧ t.events = s.events ∧ t.ticks = s.ticks

/-- 20_memory.md R54, 70_reset_and_hazards.md R192: the loader refuses an image of more than 3584 bytes; it puts byte
`j` of any other at 0x200 + `j`, touches no other byte and nothing else. -/
def Obligations.LoaderPlacesTheImage : Prop :=
  ∀ (image : List Byte) (s : State), s.mem.wf = true →
    (3584 < image.length → loadImage image s = none) ∧
    (image.length ≤ 3584 → ∃ t, loadImage image s = some t ∧
      (∀ j (h : j < image.length), t.mem.byte (0x200 + j) = image[j]) ∧
      sameMemoryOutside 0x200 image.length s t ∧ sameBeyondMemory s t ∧ t.pc = s.pc)

/-- The invariants hold at reset. -/
def Obligations.ResetMeetsTheInvariants : Prop := State.reset.Inv ∧ State.reset.PcBounded

/-- Every step keeps the invariant: memory stays canonical and lists only the program region (20_memory.md R41), `SP`
stays 0 to 15 (10_state.md R21), and a fault record is always one the rules produce (R24, 60_exceptions.md R161,
R162). -/
def Obligations.EveryStepKeepsTheInvariant : Prop := ∀ s t : State, s.Inv → step s = .next t → t.Inv

/-- 10_state.md R20: every step keeps `PC` at most 0x10FE, and every saved address at most 0xFFE, so that `PC`
arithmetic never wraps. -/
def Obligations.EveryStepKeepsThePcBounds : Prop :=
  ∀ s t : State, s.PcBounded → step s = .next t → t.PcBounded

/-- 20_memory.md R41: the reserved region is never written by guest code: after any step its bytes read as they did,
which is as at reset. -/
def Obligations.ReservedRegionIsNeverWritten : Prop :=
  ∀ s t : State, s.Inv → step s = .next t → ∀ a, a < 0x200 →
    t.mem.byte a = s.mem.byte a ∧ t.mem.byte a = State.reset.mem.byte a

/-! ## Memory -/

/-- 20_memory.md R43: a write outside [0x200, 0x1000) fails with OutOfBounds for its own address, never clamped; any
other succeeds, is read back at that address, and changes no other byte. -/
def Obligations.WriteIsReadBackAndNeverClamped : Prop :=
  ∀ (m : Memory) (a : Nat) (b : Byte), m.wf = true →
    (a < 0x200 ∨ 0x1000 ≤ a → m.write a b = .error (.outOfBounds a .write)) ∧
    (0x200 ≤ a → a < 0x1000 → ∃ m', m.write a b = .ok m' ∧ m'.read .read a = .ok b ∧
      ∀ d, d ≠ a → m'.byte d = m.byte d)

/-- 20_memory.md R58: a store is seen by the next fetch: after a block store of `V[0]` and `V[1]` or more at `I`, a
fetch from `I` reads the opcode `V[0] || V[1]`. Decision D31. -/
def Obligations.StoreIsSeenByTheNextFetch : Prop :=
  ∀ (s t : State) (x : RegIx), s.mem.wf = true → 1 ≤ x.toNat → 0x200 ≤ s.i.toNat →
    s.i.toNat + x.toNat < 0x1000 → exec (.ldIndIVx x) s = .next t →
    fetch { t with pc := s.i } = .ok (opcodeOf (s.reg 0) (s.reg 1))

/-! ## Control transfer -/

/-- 40_control_transfer.md R80, R81: the jumps. The offset jump adds `V[0]`, and its sum is neither masked nor checked
(decision D14). Nothing but `PC` changes. -/
def Obligations.JumpsReplaceThePc : Prop :=
  ∀ (s : State) (nnn : BitVec 12),
    (∃ t, exec (.jpNnn nnn) s = .next t ∧ t.pc.toNat = nnn.toNat ∧ sameRegsExcept [] s t ∧ sameBeyondRegs s t) ∧
    (∃ t, exec (.jpV0Nnn nnn) s = .next t ∧ t.pc.toNat = nnn.toNat + (s.reg 0).toNat ∧
      sameRegsExcept [] s t ∧ sameBeyondRegs s t)

/-- 40_control_transfer.md R82: a call saves its own address in `STACK[SP]`, moves `SP` up modulo 16 and jumps; no
other entry of the call stack and nothing else changes. Decisions D8, D9, D10. -/
def Obligations.CallPushesItsOwnAddress : Prop :=
  ∀ (s : State) (nnn : BitVec 12) (h : s.sp.toNat < 16), ∃ t, exec (.callNnn nnn) s = .next t ∧
    t.stack[s.sp.toNat] = s.pc ∧ (∀ j (hj : j < 16), j ≠ s.sp.toNat → t.stack[j] = s.stack[j]) ∧
    t.sp.toNat = (s.sp.toNat + 1) % 16 ∧ t.pc.toNat = nnn.toNat ∧
    sameRegsExcept [] s t ∧ t.i = s.i ∧ sameTimers s t ∧ sameMemory s t ∧ t.mode = s.mode ∧ sameDevices s t

/-- 40_control_transfer.md R83: a return moves `SP` down modulo 16 and resumes two past the saved address there; the
call stack's entries and all else stay. Decisions D8, D9. -/
def Obligations.ReturnResumesAfterTheSavedAddress : Prop :=
  ∀ (s : State) (h : s.sp.toNat < 16), ∃ t, exec .ret s = .next t ∧
    t.sp.toNat = (s.sp.toNat + 15) % 16 ∧
    t.pc.toNat = (s.stack[(s.sp.toNat + 15) % 16].toNat + 2) % 65536 ∧ t.stack = s.stack ∧
    sameRegsExcept [] s t ∧ t.i = s.i ∧ sameTimers s t ∧ sameMemory s t ∧ t.mode = s.mode ∧ sameDevices s t

/-- 40_control_transfer.md R82, R83: up to 16 calls nested one in another and then as many returns end at the
instruction after the first call, with `SP` where it was. Decisions D8, D9. -/
def Obligations.NestedCallsReturnAfterTheFirstCall : Prop :=
  ∀ (s : State) (targets : List (BitVec 12)), s.sp.toNat < 16 → targets ≠ [] → targets.length ≤ 16 →
    ∃ t, execAll (targets.map .callNnn ++ List.replicate targets.length .ret) s = some t ∧
      t.sp = s.sp ∧ t.pc = s.pc + 2

/-- 40_control_transfer.md R82, 10_state.md R21: sixteen nested calls bring `SP` back to where it was with the first
call's address saved there; a seventeenth overwrites that oldest frame with its own address. Decisions D9, D10. -/
def Obligations.SeventeenthCallOverwritesTheOldestFrame : Prop :=
  ∀ (s : State) (targets : List (BitVec 12)) (last : BitVec 12) (h : s.sp.toNat < 16), targets.length = 16 →
    ∃ t u, execAll (targets.map .callNnn) s = some t ∧ t.sp = s.sp ∧ t.stack[s.sp.toNat] = s.pc ∧
      exec (.callNnn last) t = .next u ∧ u.stack[s.sp.toNat] = t.pc ∧
      u.sp.toNat = (s.sp.toNat + 1) % 16 ∧ u.pc.toNat = last.toNat

/-- 40_control_transfer.md R84 to R87: the four register skips: `PC + 4` when the condition holds, else `PC + 2`, and
nothing else changes. -/
def Obligations.RegisterSkipsTestTheirCondition : Prop :=
  ∀ (s : State) (x y : RegIx) (kk : Byte),
    (∃ t, exec (.seVxKk x kk) s = .next t ∧ skipped (s.reg x = kk) s t ∧ sameRegsExcept [] s t ∧
      sameBeyondRegs s t) ∧
    (∃ t, exec (.sneVxKk x kk) s = .next t ∧ skipped (s.reg x ≠ kk) s t ∧ sameRegsExcept [] s t ∧
      sameBeyondRegs s t) ∧
    (∃ t, exec (.seVxVy x y) s = .next t ∧ skipped (s.reg x = s.reg y) s t ∧ sameRegsExcept [] s t ∧
      sameBeyondRegs s t) ∧
    (∃ t, exec (.sneVxVy x y) s = .next t ∧ skipped (s.reg x ≠ s.reg y) s t ∧ sameRegsExcept [] s t ∧
      sameBeyondRegs s t)

/-! ## Load, arithmetic and logic -/

/-- 41_load_arith_logic.md R100, R101: the register loads write `V[x]` and nothing else, `VF` included. -/
def Obligations.RegisterLoadsWriteVx : Prop :=
  ∀ (s : State) (x y : RegIx) (kk : Byte),
    (∃ t, exec (.ldVxKk x kk) s = .next t ∧ t.reg x = kk ∧ sameRegsExcept [x] s t ∧ advanced s t ∧
      sameBeyondRegs s t) ∧
    (∃ t, exec (.ldVxVy x y) s = .next t ∧ t.reg x = s.reg y ∧ sameRegsExcept [x] s t ∧ advanced s t ∧
      sameBeyondRegs s t)

/-- 41_load_arith_logic.md R102: the immediate add wraps modulo 256 and writes no flag. -/
def Obligations.AddImmediateWrapsWithoutFlag : Prop :=
  ∀ (s : State) (x : RegIx) (kk : Byte), ∃ t, exec (.addVxKk x kk) s = .next t ∧
    (t.reg x).toNat = ((s.reg x).toNat + kk.toNat) % 256 ∧ sameRegsExcept [x] s t ∧ advanced s t ∧
    sameBeyondRegs s t

/-- 41_load_arith_logic.md R103 to R105: OR, AND and XOR, bit by bit, without a flag. -/
def Obligations.LogicOperationsActBitByBit : Prop :=
  ∀ (s : State) (x y : RegIx),
    (∃ t, exec (.orVxVy x y) s = .next t ∧
      (∀ b, (t.reg x).getLsbD b = ((s.reg x).getLsbD b || (s.reg y).getLsbD b)) ∧
      sameRegsExcept [x] s t ∧ advanced s t ∧ sameBeyondRegs s t) ∧
    (∃ t, exec (.andVxVy x y) s = .next t ∧
      (∀ b, (t.reg x).getLsbD b = ((s.reg x).getLsbD b && (s.reg y).getLsbD b)) ∧
      sameRegsExcept [x] s t ∧ advanced s t ∧ sameBeyondRegs s t) ∧
    (∃ t, exec (.xorVxVy x y) s = .next t ∧
      (∀ b, (t.reg x).getLsbD b = ((s.reg x).getLsbD b ^^ (s.reg y).getLsbD b)) ∧
      sameRegsExcept [x] s t ∧ advanced s t ∧ sameBeyondRegs s t)

/-- 41_load_arith_logic.md R106, 10_state.md R15: the register add: the sum modulo 256 in `V[x]`, the carry in `VF`
unless `x` is 15. That the result survives in `VF` when `x` is 15 is decision D11. -/
def Obligations.AddRegistersSetsCarry : Prop :=
  ∀ (s : State) (x y : RegIx), ∃ t, exec (.addVxVy x y) s = .next t ∧
    (t.reg x).toNat = ((s.reg x).toNat + (s.reg y).toNat) % 256 ∧
    (x ≠ 15 → (t.reg 15).toNat = if (s.reg x).toNat + (s.reg y).toNat > 255 then 1 else 0) ∧
    sameRegsExcept [x, 15] s t ∧ advanced s t ∧ sameBeyondRegs s t

/-- 41_load_arith_logic.md R107, R108, 10_state.md R15: the two subtractions wrap modulo 256; the flag is 1 exactly
when the minuend is strictly greater (90_conflicts.md C2), unless `x` is 15 (decision D11). -/
def Obligations.SubtractionsFlagStrictlyGreater : Prop :=
  ∀ (s : State) (x y : RegIx),
    (∃ t, exec (.subVxVy x y) s = .next t ∧
      (t.reg x).toNat = ((s.reg x).toNat + 256 - (s.reg y).toNat) % 256 ∧
      (x ≠ 15 → (t.reg 15).toNat = if (s.reg x).toNat > (s.reg y).toNat then 1 else 0) ∧
      sameRegsExcept [x, 15] s t ∧ advanced s t ∧ sameBeyondRegs s t) ∧
    (∃ t, exec (.subnVxVy x y) s = .next t ∧
      (t.reg x).toNat = ((s.reg y).toNat + 256 - (s.reg x).toNat) % 256 ∧
      (x ≠ 15 → (t.reg 15).toNat = if (s.reg y).toNat > (s.reg x).toNat then 1 else 0) ∧
      sameRegsExcept [x, 15] s t ∧ advanced s t ∧ sameBeyondRegs s t)

/-- 41_load_arith_logic.md R109, R110, 10_state.md R15, 30_encoding.md R73: the shifts by one of `V[x]`, with the bit
shifted out in `VF` unless `x` is 15 (decision D11); `y` is ignored. -/
def Obligations.ShiftsFlagTheBitShiftedOut : Prop :=
  ∀ (s : State) (x y : RegIx),
    (∃ t, exec (.shrVx x y) s = .next t ∧ (t.reg x).toNat = (s.reg x).toNat / 2 ∧
      (x ≠ 15 → (t.reg 15).toNat = (s.reg x).toNat % 2) ∧
      sameRegsExcept [x, 15] s t ∧ advanced s t ∧ sameBeyondRegs s t) ∧
    (∃ t, exec (.shlVx x y) s = .next t ∧ (t.reg x).toNat = (s.reg x).toNat * 2 % 256 ∧
      (x ≠ 15 → (t.reg 15).toNat = (s.reg x).toNat / 128) ∧
      sameRegsExcept [x, 15] s t ∧ advanced s t ∧ sameBeyondRegs s t)

/-! ## Address register, random, display, keypad -/

/-- 42_index_random_display_keypad.md R120, 43_timer_index_memory_keywait.md R138, R140: the three operations that
write `I`. The sum keeps all 16 bits (D13); a digit above 15 counts by its low 4 bits (D15). No register and no flag
changes. -/
def Obligations.AddressRegisterOperationsWriteOnlyI : Prop :=
  ∀ (s : State) (x : RegIx) (nnn : BitVec 12),
    (∃ t, exec (.ldINnn nnn) s = .next t ∧ t.i.toNat = nnn.toNat ∧ sameRegsExcept [] s t ∧ advanced s t ∧
      sameBeyondRegs { s with i := t.i } t) ∧
    (∃ t, exec (.addIVx x) s = .next t ∧ t.i.toNat = (s.i.toNat + (s.reg x).toNat) % 65536 ∧
      sameRegsExcept [] s t ∧ advanced s t ∧ sameBeyondRegs { s with i := t.i } t) ∧
    (∃ t, exec (.ldFVx x) s = .next t ∧ t.i.toNat = 5 * ((s.reg x).toNat % 16) ∧
      sameRegsExcept [] s t ∧ advanced s t ∧ sameBeyondRegs { s with i := t.i } t)

/-- 42_index_random_display_keypad.md R121, 60_exceptions.md R183: `V[x]` gets the random byte ANDed with `kk`, for
whatever byte the source answers (free, log 6), and exactly one answer is taken even when `kk` is 0. -/
def Obligations.RandomAndsOneAnswer : Prop :=
  ∀ (s : State) (x : RegIx) (kk r : Byte), s.rng.NextIs Config.rngByte r →
    ∃ t, exec (.rndVxKk x kk) s = .next t ∧ t.reg x = r &&& kk ∧ t.rng = s.rng.consumed ∧
      sameRegsExcept [x] s t ∧ advanced s t ∧ sameBeyondRegs { s with rng := t.rng } t

/-- 42_index_random_display_keypad.md R122: a draw whose rows all exist reads them at `I`, `I + 1`, ..., sends one
request at (`V[x]`, `V[y]`) and puts the collision answer in `VF`, on every execution, `n` = 0 among them (D17). `I`,
memory and every other register stay. The request is that of the reference display with its default `DISPLAY_EDGE`,
wrap: decision D18, the model's choice of log 4. -/
def Obligations.DrawBlendsTheRowsAtI : Prop :=
  ∀ (s : State) (x y : RegIx) (n : BitVec 4), (∀ k, k < n.toNat → s.effectiveAddress k < 0x1000) →
    ∃ t, exec (.drwVxVyN x y n) s = .next t ∧
      (∀ rows, rows = (List.range n.toNat).map (fun k => s.mem.byte (s.effectiveAddress k)) →
        t.display = (xorBlitWith .wrap s.display (s.reg x) (s.reg y) rows).1 ∧
        ((t.reg 15).toNat = if (xorBlitWith .wrap s.display (s.reg x) (s.reg y) rows).2 then 1 else 0)) ∧
      sameRegsExcept [15] s t ∧ advanced s t ∧ sameBeyondRegs { s with display := t.display } t

/-- 60_exceptions.md R177, 42_index_random_display_keypad.md R122: after a draw that raises no fault `VF` is 1 exactly
when some pixel that was set before is unset after. -/
def Obligations.CollisionMeansAPixelWasErased : Prop :=
  ∀ (s t : State) (x y : RegIx) (n : BitVec 4), (∀ k, k < n.toNat → s.effectiveAddress k < 0x1000) →
    exec (.drwVxVyN x y n) s = .next t →
    ((t.reg 15 = 1 ↔ ∃ row col, pixel s.display row col = true ∧ pixel t.display row col = false) ∧
      (t.reg 15 ≠ 1 → t.reg 15 = 0))

/-- 60_exceptions.md R178: the reference display. A request inverts exactly the pixels that the set bits of its rows
cover, bit 7 leftmost; at the edges it wraps or clips (`DISPLAY_EDGE`; for clip see log 5). The device is decision
D18. -/
def Obligations.BlitInvertsTheCoveredPixels : Prop :=
  ∀ (g : Grid) (vx vy : Byte) (rows : List Byte) (row : Fin 32) (col : Fin 64), rows.length ≤ 15 →
    (pixel (xorBlitWith .wrap g vx vy rows).1 row col = true ↔
      ¬ (pixel g row col = true ↔ ∃ r b, ∃ h : r < rows.length, b < 8 ∧ rows[r].getLsbD (7 - b) = true ∧
        row.val = (vy.toNat + r) % 32 ∧ col.val = (vx.toNat + b) % 64)) ∧
    (pixel (xorBlitWith .clip g vx vy rows).1 row col = true ↔
      ¬ (pixel g row col = true ↔ ∃ r b, ∃ h : r < rows.length, b < 8 ∧ rows[r].getLsbD (7 - b) = true ∧
        row.val = vy.toNat + r ∧ col.val = vx.toNat + b))

/-- 42_index_random_display_keypad.md R122 (the source's example): drawing the same sprite twice at the same location
XORs it away: the display is as before. The registers drawn from are not `VF`, which the first draw overwrites. -/
def Obligations.DrawingTwiceRestoresTheDisplay : Prop :=
  ∀ (s : State) (x y : RegIx) (n : BitVec 4), x ≠ 15 → y ≠ 15 →
    (∀ k, k < n.toNat → s.effectiveAddress k < 0x1000) →
    ∃ t, execAll [.drwVxVyN x y n, .drwVxVyN x y n] s = some t ∧ t.display = s.display

/-- 42_index_random_display_keypad.md R123: clear-display unsets every pixel and changes nothing else but `PC`. The
operation is decision D3. -/
def Obligations.ClearUnsetsEveryPixel : Prop :=
  ∀ s : State, ∃ t, exec .cls s = .next t ∧ (∀ row col, pixel t.display row col = false) ∧
    sameRegsExcept [] s t ∧ advanced s t ∧ sameBeyondRegs { s with display := t.display } t

/-- 42_index_random_display_keypad.md R124, R125, 60_exceptions.md R180: the keypad skips test whether the key numbered
by the low 4 bits of `V[x]` (D16) is down at this query, for whatever keys are down (free, log 7). -/
def Obligations.KeypadSkipsTestTheHeldKey : Prop :=
  ∀ (s : State) (x : RegIx) (keys : BitVec 16), s.levels.NextIs Config.heldKeys keys →
    (∃ t, exec (.skpVx x) s = .next t ∧ skipped (keys.getLsbD ((s.reg x).toNat % 16) = true) s t ∧
      t.levels = s.levels.consumed ∧ sameRegsExcept [] s t ∧ sameBeyondRegs { s with levels := t.levels } t) ∧
    (∃ t, exec (.sknpVx x) s = .next t ∧ skipped (keys.getLsbD ((s.reg x).toNat % 16) = false) s t ∧
      t.levels = s.levels.consumed ∧ sameRegsExcept [] s t ∧ sameBeyondRegs { s with levels := t.levels } t)

/-! ## Timers, memory transfer, key wait -/

/-- 43_timer_index_memory_keywait.md R135 to R137: the timer transfers. Reading leaves `DT`; each write changes its
own timer only. -/
def Obligations.TimerTransfersCopyAByte : Prop :=
  ∀ (s : State) (x : RegIx),
    (∃ t, exec (.ldVxDt x) s = .next t ∧ t.reg x = s.dt ∧ sameRegsExcept [x] s t ∧ advanced s t ∧
      sameBeyondRegs s t) ∧
    (∃ t, exec (.ldDtVx x) s = .next t ∧ t.dt = s.reg x ∧ sameRegsExcept [] s t ∧ advanced s t ∧
      sameBeyondRegs { s with dt := t.dt } t) ∧
    (∃ t, exec (.ldStVx x) s = .next t ∧ t.st = s.reg x ∧ sameRegsExcept [] s t ∧ advanced s t ∧
      sameBeyondRegs { s with st := t.st } t)

/-- 60_exceptions.md R174: the tone is on exactly while `ST > 0`; a write of a nonzero value turns it on and a write
of 0 off at that step, the tick that brings `ST` to 0 turns it off, and no other instruction changes it. -/
def Obligations.ToneIsOnWhileTheSoundTimerRuns : Prop :=
  (∀ s : State, tone s = true ↔ 0 < s.st.toNat) ∧
  (∀ (s t : State) (x : RegIx), exec (.ldStVx x) s = .next t → (tone t = true ↔ s.reg x ≠ 0)) ∧
  (∀ s : State, tone (tick s) = true ↔ 1 < s.st.toNat) ∧
  (∀ (s t : State) (i : Instr), (∀ x, i ≠ .ldStVx x) → exec i s = .next t → tone t = tone s)

/-- 43_timer_index_memory_keywait.md R141: BCD store inside the program region: hundreds, tens and ones at `I`,
`I + 1`, `I + 2`, and no other byte and nothing else changes (D24). -/
def Obligations.BcdStoresThreeDigits : Prop :=
  ∀ (s : State) (x : RegIx), s.mem.wf = true → 0x200 ≤ s.effectiveAddress 0 → s.effectiveAddress 2 < 0x1000 →
    ∃ t, exec (.ldBVx x) s = .next t ∧
      (t.mem.byte (s.effectiveAddress 0)).toNat = (s.reg x).toNat / 100 ∧
      (t.mem.byte (s.effectiveAddress 1)).toNat = (s.reg x).toNat / 10 % 10 ∧
      (t.mem.byte (s.effectiveAddress 2)).toNat = (s.reg x).toNat % 10 ∧
      sameMemoryOutside (s.effectiveAddress 0) 3 s t ∧ advanced s t ∧ sameBeyondMemory s t

/-- 43_timer_index_memory_keywait.md R142: block store inside the program region: `V[k]` at `I + k` for `k` up to `x`,
and no other byte and nothing else changes, `I` included (D24). -/
def Obligations.BlockStoreWritesTheRegisters : Prop :=
  ∀ (s : State) (x : RegIx), s.mem.wf = true → 0x200 ≤ s.effectiveAddress 0 →
    s.effectiveAddress x.toNat < 0x1000 →
    ∃ t, exec (.ldIndIVx x) s = .next t ∧
      (∀ k : RegIx, k.toNat ≤ x.toNat → t.mem.byte (s.effectiveAddress k.toNat) = s.reg k) ∧
      sameMemoryOutside (s.effectiveAddress 0) (x.toNat + 1) s t ∧ advanced s t ∧ sameBeyondMemory s t

/-- 43_timer_index_memory_keywait.md R143: block load inside memory: `V[k]` gets the byte at `I + k` for `k` up to `x`,
the registers above stay, and so does all else, `I` included (D24). -/
def Obligations.BlockLoadReadsTheRegisters : Prop :=
  ∀ (s : State) (x : RegIx), s.effectiveAddress x.toNat < 0x1000 →
    ∃ t, exec (.ldVxIndI x) s = .next t ∧
      (∀ k : RegIx, k.toNat ≤ x.toNat → t.reg k = s.mem.byte (s.effectiveAddress k.toNat)) ∧
      (∀ k : RegIx, x.toNat < k.toNat → t.reg k = s.reg k) ∧ advanced s t ∧ sameBeyondRegs s t

/-- 43_timer_index_memory_keywait.md R141, R142, 20_memory.md R49, 60_exceptions.md R161, R164: a store of the digits
or of the registers raises OutOfBounds for the first of its addresses outside [0x200, 0x1000), and then nothing but the
mode changes: no byte is written. Decisions D13, D19, D20. -/
def Obligations.StoresOutsideTheProgramRegionFault : Prop :=
  ∀ (s : State) (x : RegIx) (k : Nat),
    (s.effectiveAddress k < 0x200 ∨ 0x1000 ≤ s.effectiveAddress k) →
    (∀ j, j < k → 0x200 ≤ s.effectiveAddress j ∧ s.effectiveAddress j < 0x1000) →
    (k < 3 → exec (.ldBVx x) s = .next { s with mode := .faulted (outOfBoundsRecord (s.effectiveAddress k) .write) }) ∧
    (k ≤ x.toNat → exec (.ldIndIVx x) s = .next { s with mode := .faulted (outOfBoundsRecord (s.effectiveAddress k) .write) })

/-- 42_index_random_display_keypad.md R122, 43_timer_index_memory_keywait.md R143, 20_memory.md R49, 60_exceptions.md
R161, R164: a draw or a block load with an address outside memory raises OutOfBounds for the first of them, and nothing
but the mode changes: no register, no pixel. Decisions D13, D19, D20. -/
def Obligations.ReadsPastTheEndFault : Prop :=
  ∀ (s : State) (x y : RegIx) (n : BitVec 4) (k : Nat), 0x1000 ≤ s.effectiveAddress k →
    (∀ j, j < k → s.effectiveAddress j < 0x1000) →
    (k < n.toNat → exec (.drwVxVyN x y n) s =
      .next { s with mode := .faulted (outOfBoundsRecord (s.effectiveAddress k) .read) }) ∧
    (k ≤ x.toNat → exec (.ldVxIndI x) s =
      .next { s with mode := .faulted (outOfBoundsRecord (s.effectiveAddress k) .read) })

/-- 43_timer_index_memory_keywait.md R144: the step that executes the key wait makes one query. A key goes to `V[x]`
and `PC` advances; no key makes the mode `AwaitingKey(x)` and leaves `PC`. The answer is free (log 8); one query per
step is decision D23. -/
def Obligations.KeyWaitCompletesOrAwaits : Prop :=
  ∀ (s : State) (x : RegIx) (e : Option Key), s.events.NextIs Config.keyEvent e →
    ∃ t, exec (.ldVxK x) s = .next t ∧ t.events = s.events.consumed ∧
      (∀ k, e = some k → (t.reg x).toNat = k.toNat ∧ sameRegsExcept [x] s t ∧ advanced s t ∧
        sameBeyondRegs { s with events := t.events } t) ∧
      (e = none → sameRegsExcept [] s t ∧ t.pc = s.pc ∧
        sameBeyondRegs { s with events := t.events, mode := .awaitingKey x } t)

/-! ## Whole-machine rules -/

/-- 10_state.md R12 and its table, R14: an instruction writes no general register but those the table gives it. -/
def Obligations.OnlyListedRegistersAreWritten : Prop :=
  ∀ (i : Instr) (s t : State), exec i s = .next t → sameRegsExcept (writesRegs i) s t

/-- 10_state.md R12 and its table: an instruction depends on no general register but those the table gives it: with
another value in any other register it does the same, and that register keeps the other value or takes the same
result. -/
def Obligations.OnlyListedRegistersAreRead : Prop :=
  ∀ (i : Instr) (s t : State) (r : RegIx) (b : Byte), r ∉ readsRegs i → exec i s = .next t →
    ∃ t', exec i (s.setReg r b) = .next t' ∧ t'.setReg r 0 = t.setReg r 0 ∧
      (t'.reg r = b ∨ r ∈ writesRegs i ∧ t'.reg r = t.reg r)

/-- 10_state.md R14: after a flag-writing operation that raises no fault and whose destination is not `VF`, `VF` is 0
or 1. -/
def Obligations.FlagOutputIsZeroOrOne : Prop :=
  ∀ (s t : State) (x y : RegIx) (n : BitVec 4) (i : Instr),
    (x ≠ 15 ∧ i ∈ [.addVxVy x y, .subVxVy x y, .subnVxVy x y, .shrVx x y, .shlVx x y]) ∨
      (i = .drwVxVyN x y n ∧ ∀ k, k < n.toNat → s.effectiveAddress k < 0x1000) →
    exec i s = .next t → t.reg 15 = 0 ∨ t.reg 15 = 1

/-- 10_state.md R16, R21, R22, 20_memory.md R48: only the operations these rules name write `I` (Annn, Fx1E, Fx29),
the call stack (2nnn, 00EE), `DT` (Fx15), `ST` (Fx18) and memory (Fx33, Fx55). -/
def Obligations.StateIsWrittenOnlyByItsOperations : Prop :=
  ∀ (i : Instr) (s t : State), exec i s = .next t →
    ((∀ nnn x, i ≠ .ldINnn nnn ∧ i ≠ .addIVx x ∧ i ≠ .ldFVx x) → t.i = s.i) ∧
    ((∀ nnn, i ≠ .callNnn nnn ∧ i ≠ .ret) → sameStack s t) ∧
    ((∀ x, i ≠ .ldDtVx x) → t.dt = s.dt) ∧
    ((∀ x, i ≠ .ldStVx x) → t.st = s.st) ∧
    ((∀ x, i ≠ .ldBVx x ∧ i ≠ .ldIndIVx x) → sameMemory s t)

/-- 60_exceptions.md R161, R164: an instruction that ends in a fault is one of the four that access memory, the fault
is an OutOfBounds of a read or a write, and everything but the mode is as before. Decisions D19, D20. -/
def Obligations.FaultingInstructionChangesOnlyTheMode : Prop :=
  ∀ (i : Instr) (s t : State) (r : FaultRecord), s.Safe → exec i s = .next t → t.mode = .faulted r →
    t = { s with mode := .faulted r } ∧ r.kind = .outOfBounds ∧
    ((∃ x y n, i = .drwVxVyN x y n) ∧ r.access = .read ∨ (∃ x, i = .ldVxIndI x) ∧ r.access = .read ∨
      (∃ x, i = .ldBVx x ∨ i = .ldIndIVx x) ∧ r.access = .write)
end

