-- ==== Sys2Proof/Laws/Decode.lean ====
section
/-! SUPPORT. The decoder and the encoder: what the fields of an encoded word are, what the word with given fields is,
and what a dispatched opcode looks like. -/

namespace Sys2Proof

/-! ### The fields of an encoded word -/

theorem fieldsOf_encXYN (c : BitVec 4) (x y : RegIx) (n : BitVec 4) :
    fieldsOf (encXYN c x y n) = ⟨c, x, y, n, y ++ n, x ++ y ++ n⟩ := by
  simp only [fieldsOf, encXYN, Fields.mk.injEq]
  refine ⟨?_, ?_, ?_, ?_, ?_, ?_⟩ <;> ext i hi <;>
    simp only [BitVec.getElem_extractLsb', BitVec.getLsbD_append] <;> grind

theorem fieldsOf_encXKK (c : BitVec 4) (x : RegIx) (kk : Byte) :
    fieldsOf (encXKK c x kk) = ⟨c, x, kk.extractLsb' 4 4, kk.extractLsb' 0 4, kk, x ++ kk⟩ := by
  simp only [fieldsOf, encXKK, Fields.mk.injEq]
  refine ⟨?_, ?_, ?_, ?_, ?_, ?_⟩ <;> ext i hi <;>
    simp only [BitVec.getElem_extractLsb', BitVec.getLsbD_append] <;> grind

theorem fieldsOf_encNNN (c : BitVec 4) (nnn : BitVec 12) :
    fieldsOf (encNNN c nnn) =
      ⟨c, nnn.extractLsb' 8 4, nnn.extractLsb' 4 4, nnn.extractLsb' 0 4, nnn.extractLsb' 0 8, nnn⟩ := by
  simp only [fieldsOf, encNNN, Fields.mk.injEq]
  refine ⟨?_, ?_, ?_, ?_, ?_, ?_⟩ <;> ext i hi <;>
    simp only [BitVec.getElem_extractLsb', BitVec.getLsbD_append] <;> grind

/-! ### A word from its fields -/

theorem encXYN_fieldsOf (op : Word) :
    encXYN (fieldsOf op).opclass (fieldsOf op).x (fieldsOf op).y (fieldsOf op).nibble = op := by
  ext i hi
  simp only [fieldsOf, encXYN]
  grind

theorem encXKK_fieldsOf (op : Word) : encXKK (fieldsOf op).opclass (fieldsOf op).x (fieldsOf op).byte = op := by
  ext i hi
  simp only [fieldsOf, encXKK]
  grind

theorem encNNN_fieldsOf (op : Word) : encNNN (fieldsOf op).opclass (fieldsOf op).addr = op := by
  ext i hi
  simp only [fieldsOf, encNNN]
  grind

/-- The two bytes of an opcode make it again. -/
@[simp] theorem opcodeOf_bytes (op : Word) : opcodeOf (highByte op) (lowByte op) = op := by
  ext i hi
  simp only [opcodeOf, highByte, lowByte]
  grind

@[simp] theorem highByte_opcodeOf (hi lo : Byte) : highByte (opcodeOf hi lo) = hi := by
  ext i h
  simp only [opcodeOf, highByte]
  grind

@[simp] theorem lowByte_opcodeOf (hi lo : Byte) : lowByte (opcodeOf hi lo) = lo := by
  ext i h
  simp only [opcodeOf, lowByte]
  grind

/-! ### Masking an encoded word -/

theorem encNNN_and (c : BitVec 4) (nnn : BitVec 12) : encNNN c nnn &&& 0xF000#16 = c ++ 0#12 := by
  ext i hi
  simp only [encNNN, BitVec.getElem_and, BitVec.getElem_append]
  interval_cases i <;> grind

theorem encXKK_and_class (c : BitVec 4) (x : RegIx) (kk : Byte) :
    encXKK c x kk &&& 0xF000#16 = c ++ 0#12 := by
  ext i hi
  simp only [encXKK, BitVec.getElem_and, BitVec.getElem_append]
  interval_cases i <;> grind

theorem encXKK_and_byte (c : BitVec 4) (x : RegIx) (kk : Byte) :
    encXKK c x kk &&& 0xF0FF#16 = c ++ 0#4 ++ kk := by
  ext i hi
  simp only [encXKK, BitVec.getElem_and, BitVec.getElem_append]
  interval_cases i <;> grind

theorem encXYN_and_class (c : BitVec 4) (x y : RegIx) (n : BitVec 4) :
    encXYN c x y n &&& 0xF000#16 = c ++ 0#12 := by
  ext i hi
  simp only [encXYN, BitVec.getElem_and, BitVec.getElem_append]
  interval_cases i <;> grind

theorem encXYN_and_nibble (c : BitVec 4) (x y : RegIx) (n : BitVec 4) :
    encXYN c x y n &&& 0xF00F#16 = c ++ 0#8 ++ n := by
  ext i hi
  simp only [encXYN, BitVec.getElem_and, BitVec.getElem_append]
  interval_cases i <;> grind

/-! ### The decoder on bytes -/

/-- Decoding an opcode's two bytes is dispatching it. -/
theorem decode_bytes (op : Word) (rest : List Byte) :
    decode (highByte op :: lowByte op :: rest) =
      match dispatch op with
      | some i => .ok (i, rest)
      | none => .error (.unknownOpcode op) := by
  cases h : dispatch op <;> simp only [decode, opcodeOf_bytes, h]

/-- Decoding two bytes gives an instruction exactly when their opcode dispatches to it. -/
theorem decode_eq_ok (hi lo : Byte) (rest : List Byte) (i : Instr) :
    decode (hi :: lo :: rest) = .ok (i, rest) ↔ dispatch (opcodeOf hi lo) = some i := by
  simp only [decode]
  cases dispatch (opcodeOf hi lo) <;> simp

/-! ### Dispatch and encode -/

theorem encode_of_dispatch8 {f : Fields} {i : Instr} (h : dispatch8 f = some i) :
    encode i = encXYN 8 f.x f.y f.nibble := by
  unfold dispatch8 at h
  split at h <;> cases h
  all_goals
    rename_i hn
    exact congrArg (encXYN 8 f.x f.y) (BitVec.eq_of_toNat_eq hn.symm)

theorem encode_of_dispatchE {f : Fields} {i : Instr} (h : dispatchE f = some i) :
    encode i = encXKK 0xE f.x f.byte := by
  unfold dispatchE at h
  split at h <;> cases h
  all_goals
    rename_i hn
    exact congrArg (encXKK 0xE f.x) (BitVec.eq_of_toNat_eq hn.symm)

theorem encode_of_dispatchF {f : Fields} {i : Instr} (h : dispatchF f = some i) :
    encode i = encXKK 0xF f.x f.byte := by
  unfold dispatchF at h
  split at h <;> cases h
  all_goals
    rename_i hn
    exact congrArg (encXKK 0xF f.x) (BitVec.eq_of_toNat_eq hn.symm)

theorem encode_of_dispatch0 {hasCls : Bool} {op : Word} {i : Instr} (h : dispatch0 hasCls op = some i) :
    encode i = op := by
  unfold dispatch0 at h
  split at h
  · cases h; rename_i h'; exact h'.1.symm
  · split at h <;> cases h
    rename_i h'; exact h'.symm

/-- The opcode that dispatches to an instruction is that instruction's encoding. -/
theorem encode_of_dispatchWith {hasCls : Bool} {op : Word} {i : Instr} (h : dispatchWith hasCls op = some i) :
    encode i = op := by
  have nnn : ∀ c : BitVec 4, (fieldsOf op).opclass.toNat = c.toNat → encNNN c (fieldsOf op).addr = op :=
    fun c h => by rw [← BitVec.eq_of_toNat_eq h, encNNN_fieldsOf]
  have xkk : ∀ c : BitVec 4, (fieldsOf op).opclass.toNat = c.toNat →
      encXKK c (fieldsOf op).x (fieldsOf op).byte = op :=
    fun c h => by rw [← BitVec.eq_of_toNat_eq h, encXKK_fieldsOf]
  have xyn : ∀ c : BitVec 4, (fieldsOf op).opclass.toNat = c.toNat →
      encXYN c (fieldsOf op).x (fieldsOf op).y (fieldsOf op).nibble = op :=
    fun c h => by rw [← BitVec.eq_of_toNat_eq h, encXYN_fieldsOf]
  unfold dispatchWith at h
  simp only at h
  split at h
  case h_1 => exact encode_of_dispatch0 h
  case h_6 hc =>
    split at h <;> cases h
    rename_i hn
    exact (congrArg (encXYN 5 _ _) hn.symm).trans (xyn 5 hc)
  case h_9 hc => exact (encode_of_dispatch8 h).trans (xyn 8 hc)
  case h_10 hc =>
    split at h <;> cases h
    rename_i hn
    exact (congrArg (encXYN 9 _ _) hn.symm).trans (xyn 9 hc)
  case h_14 hc => cases h; exact xyn 0xD hc
  case h_15 hc => exact (encode_of_dispatchE h).trans (xkk 0xE hc)
  case h_16 =>
    refine (encode_of_dispatchF h).trans (xkk 0xF ?_)
    have hlt := (fieldsOf op).opclass.isLt
    generalize (fieldsOf op).opclass.toNat = c at *
    show c = 15
    interval_cases c <;> first | rfl | simp_all
  case h_2 hc => cases h; exact nnn 1 hc
  case h_3 hc => cases h; exact nnn 2 hc
  case h_4 hc => cases h; exact xkk 3 hc
  case h_5 hc => cases h; exact xkk 4 hc
  case h_7 hc => cases h; exact xkk 6 hc
  case h_8 hc => cases h; exact xkk 7 hc
  case h_11 hc => cases h; exact nnn 0xA hc
  case h_12 hc => cases h; exact nnn 0xB hc
  case h_13 hc => cases h; exact xkk 0xC hc

/-- An instruction of the machine with `HAS_CLS` is one that its dispatch answers. -/
theorem wellFormedWith_of_dispatchWith {hasCls : Bool} {op : Word} {i : Instr}
    (h : dispatchWith hasCls op = some i) : i.wellFormedWith hasCls = true := by
  cases i <;> try rfl
  have := encode_of_dispatchWith h
  subst this
  cases hasCls
  · exact absurd h (by decide)
  · rfl

end Sys2Proof
end

