-- ==== Sys2Proof/Laws/Display.lean ====
section
/-! SUPPORT. The reference display: what blending does to each pixel, that a sprite covers no pixel twice, and what the
collision answer means. -/

namespace Sys2Proof.Machine

/-- Grids whose pixels all agree are the same. -/
theorem grid_ext {g h : Grid} (e : ∀ row col, pixel g row col = pixel h row col) : g = h := by
  apply Vector.ext
  intro row hr
  apply BitVec.eq_of_getLsbD_eq
  intro col hc
  exact e ⟨row, hr⟩ ⟨col, hc⟩

@[simp] theorem pixel_flipPixel (g : Grid) (row r : Fin 32) (col c : Fin 64) :
    pixel (flipPixel g row col) r c = (pixel g r c ^^ decide ((r, c) = (row, col))) := by
  obtain ⟨r, hr⟩ := r; obtain ⟨row, hrow⟩ := row; obtain ⟨c, hc⟩ := c; obtain ⟨col, hcol⟩ := col
  simp only [pixel, flipPixel, Vector.getElem_set, Prod.mk.injEq, Fin.mk.injEq]
  by_cases h : row = r
  · subst h
    simp [BitVec.getLsbD_twoPow, hcol, eq_comm]
  · simp [h, Ne.symm h]

@[simp] theorem pixel_clearedGrid (row : Fin 32) (col : Fin 64) : pixel clearedGrid row col = false := by
  simp [pixel, clearedGrid]

/-- Blending distinct pixels inverts exactly those. -/
theorem pixel_blendPlaces (g : Grid) (c : Bool) (ps : List (Fin 32 × Fin 64)) (h : ps.Nodup)
    (row : Fin 32) (col : Fin 64) :
    pixel (blendPlaces g c ps).1 row col = (pixel g row col ^^ decide ((row, col) ∈ ps)) := by
  induction ps generalizing g c with
  | nil => simp [blendPlaces]
  | cons p ps ih =>
    obtain ⟨r, k⟩ := p
    have hn := List.nodup_cons.1 h
    simp only [blendPlaces, ih _ _ hn.2, pixel_flipPixel, List.mem_cons]
    by_cases hp : (row, col) = (r, k)
    · simp [hp, hn.1]
    · simp [hp]

/-- The collision bit after blending distinct pixels: it was set, or one of them was. -/
theorem blendPlaces_collision (g : Grid) (c : Bool) (ps : List (Fin 32 × Fin 64)) (h : ps.Nodup) :
    (blendPlaces g c ps).2 = (c || ps.any fun p => pixel g p.1 p.2) := by
  induction ps generalizing g c with
  | nil => simp [blendPlaces]
  | cons p ps ih =>
    obtain ⟨r, k⟩ := p
    have hn := List.nodup_cons.1 h
    have hany : (ps.any fun p => pixel (flipPixel g r k) p.1 p.2) = ps.any fun p => pixel g p.1 p.2 := by
      rw [Bool.eq_iff_iff]
      simp only [List.any_eq_true]
      refine exists_congr fun q => and_congr_right fun hq => ?_
      have : (q.1, q.2) ≠ (r, k) := fun e => hn.1 (e ▸ hq)
      simp [this]
    simp only [blendPlaces, ih _ _ hn.2, hany, List.any_cons, Bool.or_assoc]

/-! ### A sprite covers no pixel twice -/

theorem pixelPlace_eq_some {edge : Config.DisplayEdge} {vx vy : Byte} {r b : Nat} {p : Fin 32 × Fin 64}
    (h : pixelPlace edge vx vy r b = some p) :
    p.1.val = (vy.toNat + r) % 32 ∧ p.2.val = (vx.toNat + b) % 64 := by
  cases edge with
  | wrap => simp only [pixelPlace, Option.some.injEq] at h; subst h; exact ⟨rfl, rfl⟩
  | clip =>
    simp only [pixelPlace] at h
    split at h
    · rename_i hb
      simp only [Option.some.injEq] at h
      subst h
      exact ⟨(Nat.mod_eq_of_lt hb.1).symm, (Nat.mod_eq_of_lt hb.2).symm⟩
    · exact absurd h (by simp)

/-- A pixel that a sprite row covers: its bit of the row byte is set. -/
theorem mem_rowPlaces {edge : Config.DisplayEdge} {vx vy : Byte} {r : Nat} {row : Byte}
    {p : Fin 32 × Fin 64} :
    p ∈ rowPlaces edge vx vy r row ↔
      ∃ b, b < 8 ∧ row.getLsbD (7 - b) = true ∧ pixelPlace edge vx vy r b = some p := by
  have hmem : ∀ b, b ∈ [0, 1, 2, 3, 4, 5, 6, 7] ↔ b < 8 := by intro b; simp; omega
  simp only [rowPlaces, List.mem_filterMap, hmem]
  constructor
  · rintro ⟨b, hb, h⟩
    split at h
    · exact ⟨b, hb, ‹_›, h⟩
    · cases h
  · rintro ⟨b, hb, h1, h2⟩
    exact ⟨b, hb, by rw [if_pos h1]; exact h2⟩

theorem rowPlaces_nodup (edge : Config.DisplayEdge) (vx vy : Byte) (r : Nat) (row : Byte) :
    (rowPlaces edge vx vy r row).Nodup := by
  unfold rowPlaces
  rw [List.Nodup, List.pairwise_filterMap]
  have hnd : ([0, 1, 2, 3, 4, 5, 6, 7] : List Nat).Pairwise fun a b => a ≠ b ∧ a < 8 ∧ b < 8 := by decide
  refine hnd.imp fun {a b} hab p hp q hq e => ?_
  subst e
  split at hp <;> [skip; cases hp]
  split at hq <;> [skip; cases hq]
  have h1 := (pixelPlace_eq_some hp).2
  have h2 := (pixelPlace_eq_some hq).2
  omega

/-- A pixel that a sprite covers belongs to one of its rows. -/
theorem mem_spritePlaces {edge : Config.DisplayEdge} {vx vy : Byte} {r : Nat} {rows : List Byte}
    {p : Fin 32 × Fin 64} :
    p ∈ spritePlaces edge vx vy r rows ↔
      ∃ j, ∃ h : j < rows.length, p ∈ rowPlaces edge vx vy (r + j) rows[j] := by
  induction rows generalizing r with
  | nil => simp [spritePlaces]
  | cons row rows ih =>
    simp only [spritePlaces, List.mem_append, ih]
    constructor
    · rintro (h | ⟨j, hj, h⟩)
      · exact ⟨0, by simp, by simpa using h⟩
      · exact ⟨j + 1, by simpa using hj, by simpa [Nat.add_assoc, Nat.add_comm 1] using h⟩
    · rintro ⟨j, hj, h⟩
      cases j with
      | zero => exact .inl (by simpa using h)
      | succ j => exact .inr ⟨j, by simpa using hj, by simpa [Nat.add_assoc, Nat.add_comm 1] using h⟩

theorem spritePlaces_nodup (edge : Config.DisplayEdge) (vx vy : Byte) (r : Nat) (rows : List Byte)
    (hlen : rows.length ≤ 32) : (spritePlaces edge vx vy r rows).Nodup := by
  induction rows generalizing r with
  | nil => simp [spritePlaces]
  | cons row rows ih =>
    simp only [List.length_cons] at hlen
    simp only [spritePlaces, List.nodup_append]
    refine ⟨rowPlaces_nodup .., ih (r + 1) (by omega), fun p hp q hq e => ?_⟩
    subst e
    obtain ⟨j, hj, hq⟩ := mem_spritePlaces.1 hq
    obtain ⟨_, _, _, h1⟩ := mem_rowPlaces.1 hp
    obtain ⟨_, _, _, h2⟩ := mem_rowPlaces.1 hq
    have := (pixelPlace_eq_some h1).1
    have := (pixelPlace_eq_some h2).1
    omega

/-! ### The request -/

/-- Each pixel after a request: inverted where the sprite covers it. -/
theorem pixel_xorBlitWith (edge : Config.DisplayEdge) (g : Grid) (vx vy : Byte) (rows : List Byte)
    (hlen : rows.length ≤ 32) (row : Fin 32) (col : Fin 64) :
    pixel (xorBlitWith edge g vx vy rows).1 row col =
      (pixel g row col ^^ decide ((row, col) ∈ spritePlaces edge vx vy 0 rows)) :=
  pixel_blendPlaces _ _ _ (spritePlaces_nodup _ _ _ _ _ hlen) _ _

/-- The answer of a request: some pixel was set before and is unset after (60_exceptions.md R177). -/
theorem xorBlitWith_collision (edge : Config.DisplayEdge) (g : Grid) (vx vy : Byte) (rows : List Byte)
    (hlen : rows.length ≤ 32) :
    (xorBlitWith edge g vx vy rows).2 = true ↔
      ∃ row col, pixel g row col = true ∧ pixel (xorBlitWith edge g vx vy rows).1 row col = false := by
  have hn := spritePlaces_nodup edge vx vy 0 rows hlen
  simp only [pixel_xorBlitWith edge g vx vy rows hlen]
  rw [xorBlitWith, blendPlaces_collision _ _ _ hn]
  simp only [Bool.false_or, List.any_eq_true]
  constructor
  · rintro ⟨⟨r, c⟩, hp, hpix⟩
    exact ⟨r, c, hpix, by simp [hp, show pixel g r c = true from hpix]⟩
  · rintro ⟨r, c, hpix, h⟩
    exact ⟨(r, c), by simpa [hpix] using h, hpix⟩

/-- The machine's display wraps at its edges (log 4). -/
theorem xorBlit_eq (g : Grid) (vx vy : Byte) (rows : List Byte) :
    xorBlit g vx vy rows = xorBlitWith .wrap g vx vy rows := rfl

/-- The same request twice leaves the grid as it was. -/
theorem xorBlitWith_twice (edge : Config.DisplayEdge) (g : Grid) (vx vy : Byte) (rows : List Byte)
    (hlen : rows.length ≤ 32) :
    (xorBlitWith edge (xorBlitWith edge g vx vy rows).1 vx vy rows).1 = g := by
  apply grid_ext
  intro row col
  simp [pixel_xorBlitWith _ _ _ _ _ hlen]

end Sys2Proof.Machine
end

