-- ==== Sys2Proof/Laws/Memory.lean ====
section
/-! SUPPORT. Memory: read after write, the canonical form, and what the checked accesses answer. -/

namespace Sys2Proof.Machine

/-! ### The canonical form -/

theorem Memory.wf_iff (m : Memory) :
    m.wf = true ↔ m.Pairwise (fun c d => c.1 < d.1) ∧ ∀ c ∈ m, c.2 ≠ unlistedByte c.1 := by
  simp [Memory.wf]

theorem Memory.wf_nil : Memory.wf [] = true := rfl

theorem Memory.wf_cons (k : Nat) (b : Byte) (m : Memory) :
    Memory.wf ((k, b) :: m) = true ↔ (∀ c ∈ m, k < c.1) ∧ b ≠ unlistedByte k ∧ m.wf = true := by
  simp only [Memory.wf_iff, List.pairwise_cons, List.forall_mem_cons]
  tauto

theorem Memory.wf_consCell (a : Nat) (b : Byte) (m : Memory) (hm : m.wf = true) (ha : ∀ c ∈ m, a < c.1) :
    (Memory.consCell a b m).wf = true := by
  unfold Memory.consCell
  split
  · exact hm
  · exact (Memory.wf_cons a b m).2 ⟨ha, ‹_›, hm⟩

/-- Below the first address listed, memory reads as unlisted. -/
theorem Memory.byte_below (m : Memory) (a : Nat) (h : ∀ c ∈ m, a < c.1) : m.byte a = unlistedByte a := by
  cases m with
  | nil => rfl
  | cons c m =>
    obtain ⟨k, b⟩ := c
    have : a < k := h (k, b) List.mem_cons_self
    simp only [Memory.byte]
    rw [if_neg (by omega), if_pos this]

/-- A raw read just above a head cell. -/
theorem Memory.byte_cons (k : Nat) (b : Byte) (m : Memory) (a : Nat) :
    Memory.byte ((k, b) :: m) a = if a = k then b else if a < k then unlistedByte a else m.byte a := rfl

theorem Memory.byte_consCell (a : Nat) (b : Byte) (m : Memory) (h : ∀ c ∈ m, a < c.1) (d : Nat) :
    (Memory.consCell a b m).byte d = if d = a then b else m.byte d := by
  unfold Memory.consCell
  by_cases hb : b = unlistedByte a
  · rw [if_pos hb]
    split
    · subst d; rw [Memory.byte_below m a h, hb]
    · rfl
  · rw [if_neg hb, Memory.byte_cons]
    by_cases hd : d = a
    · simp [hd]
    · rw [if_neg hd, if_neg hd]
      split
      · exact (Memory.byte_below m d fun c hc => Nat.lt_trans ‹d < a› (h c hc)).symm
      · rfl

/-! ### put -/

theorem Memory.mem_put {m : Memory} {a : Nat} {b : Byte} {c : Host.Cell} (h : c ∈ m.put a b) :
    c = (a, b) ∨ c ∈ m := by
  induction m with
  | nil =>
    simp only [Memory.put, Memory.consCell] at h
    split at h <;> simp_all
  | cons d m ih =>
    obtain ⟨k, e⟩ := d
    simp only [Memory.put, Memory.consCell] at h
    split at h
    · split at h <;> simp_all
    · split at h
      · split at h
        · exact .inr (List.mem_cons_of_mem _ h)
        · rcases List.mem_cons.1 h with h | h <;> simp [h]
      · rcases List.mem_cons.1 h with h | h
        · simp [h]
        · rcases ih h with h | h <;> simp [h]

/-- Every memory operation keeps the canonical form: put. -/
theorem Memory.wf_put (m : Memory) (a : Nat) (b : Byte) (h : m.wf = true) : (m.put a b).wf = true := by
  induction m with
  | nil => exact Memory.wf_consCell a b [] rfl (by simp)
  | cons d m ih =>
    obtain ⟨k, e⟩ := d
    have hc := (Memory.wf_cons k e m).1 h
    simp only [Memory.put]
    split
    · refine Memory.wf_consCell a b _ h fun c hm => ?_
      rcases List.mem_cons.1 hm with rfl | hm
      · assumption
      · exact Nat.lt_trans ‹a < k› (hc.1 c hm)
    · split
      · subst a
        exact Memory.wf_consCell k b m hc.2.2 hc.1
      · refine (Memory.wf_cons _ _ _).2 ⟨fun c hm => ?_, hc.2.1, ih hc.2.2⟩
        rcases Memory.mem_put hm with rfl | hm
        · show k < a; omega
        · exact hc.1 c hm

/-- A put changes the byte it names and no other. -/
theorem Memory.byte_put (m : Memory) (a : Nat) (b : Byte) (h : m.wf = true) (d : Nat) :
    (m.put a b).byte d = if d = a then b else m.byte d := by
  induction m with
  | nil => exact Memory.byte_consCell a b [] (by simp) d
  | cons c m ih =>
    obtain ⟨k, e⟩ := c
    have hc := (Memory.wf_cons k e m).1 h
    simp only [Memory.put]
    split
    · refine Memory.byte_consCell a b _ (fun c hm => ?_) d
      rcases List.mem_cons.1 hm with rfl | hm
      · assumption
      · exact Nat.lt_trans ‹a < k› (hc.1 c hm)
    · split
      · subst a
        rw [Memory.byte_consCell k b m hc.1, Memory.byte_cons]
        split
        · rfl
        · split
          · exact Memory.byte_below m d fun c hm => Nat.lt_trans ‹d < k› (hc.1 c hm)
          · rfl
      · rw [Memory.byte_cons, Memory.byte_cons, ih hc.2.2]
        split
        · rw [if_neg (by omega)]
        · split
          · rw [if_neg (by omega)]
          · rfl

/-- Canonical memories that read the same are the same. -/
theorem Memory.ext_of_wf {m n : Memory} (hm : m.wf = true) (hn : n.wf = true)
    (h : ∀ a, m.byte a = n.byte a) : m = n := by
  induction m generalizing n with
  | nil =>
    cases n with
    | nil => rfl
    | cons d n =>
      obtain ⟨k, b⟩ := d
      have := h k
      simp only [Memory.byte_cons, if_true] at this
      exact absurd this.symm ((Memory.wf_cons k b n).1 hn).2.1
  | cons c m ih =>
    obtain ⟨k, b⟩ := c
    have hc := (Memory.wf_cons k b m).1 hm
    cases n with
    | nil =>
      have := h k
      simp only [Memory.byte_cons, if_true] at this
      exact absurd this hc.2.1
    | cons d n =>
      obtain ⟨l, e⟩ := d
      have hd := (Memory.wf_cons l e n).1 hn
      have hkl : k = l := by
        rcases Nat.lt_trichotomy k l with hlt | heq | hlt
        · have := h k
          simp only [Memory.byte_cons, if_true] at this
          rw [if_neg (by omega), if_pos hlt] at this
          exact absurd this hc.2.1
        · exact heq
        · have := h l
          simp only [Memory.byte_cons, if_true] at this
          rw [if_neg (by omega), if_pos hlt] at this
          exact absurd this.symm hd.2.1
      subst hkl
      have hbe : b = e := by simpa [Memory.byte_cons] using h k
      subst hbe
      rw [ih hc.2.2 hd.2.2 fun a => ?_]
      have := h a
      simp only [Memory.byte_cons] at this
      rcases Nat.lt_trichotomy a k with hlt | heq | hlt
      · rw [Memory.byte_below m a fun c hm => Nat.lt_trans hlt (hc.1 c hm),
          Memory.byte_below n a fun c hm => Nat.lt_trans hlt (hd.1 c hm)]
      · subst a
        rw [Memory.byte_below m k hc.1, Memory.byte_below n k hd.1]
      · rwa [if_neg (by omega), if_neg (by omega), if_neg (by omega), if_neg (by omega)] at this

/-! ### putBytes -/

theorem Memory.wf_putBytes (m : Memory) (a : Nat) (bs : List Byte) (h : m.wf = true) :
    (m.putBytes a bs).wf = true := by
  induction bs generalizing m a with
  | nil => exact h
  | cons b bs ih => exact ih _ _ (Memory.wf_put m a b h)

/-- Bytes put from `a` upward are read there, and every other address reads as before. -/
theorem Memory.byte_putBytes (m : Memory) (a : Nat) (bs : List Byte) (h : m.wf = true) (d : Nat) :
    (m.putBytes a bs).byte d =
      if a ≤ d ∧ d < a + bs.length then bs.getD (d - a) 0 else m.byte d := by
  induction bs generalizing m a with
  | nil => rw [if_neg (by simp)]; rfl
  | cons b bs ih =>
    simp only [Memory.putBytes, ih _ _ (Memory.wf_put m a b h), Memory.byte_put m a b h, List.length_cons]
    rcases Nat.lt_trichotomy d a with hlt | heq | hlt
    · rw [if_neg (by omega), if_neg (by omega), if_neg (by omega)]
    · subst heq
      rw [if_neg (by omega), if_pos rfl, if_pos (by omega), Nat.sub_self, List.getD_cons_zero]
    · by_cases h2 : d < a + (bs.length + 1)
      · rw [if_pos (by omega), if_pos (by omega), show d - a = d - (a + 1) + 1 by omega, List.getD_cons_succ]
      · rw [if_neg (by omega), if_neg (by omega), if_neg (by omega)]

theorem Memory.mem_putBytes {m : Memory} {a : Nat} {bs : List Byte} {c : Host.Cell}
    (h : c ∈ m.putBytes a bs) : c ∈ m ∨ a ≤ c.1 ∧ c.1 < a + bs.length := by
  induction bs generalizing m a with
  | nil => exact .inl h
  | cons b bs ih =>
    rcases ih h with h | ⟨h1, h2⟩
    · rcases Memory.mem_put h with rfl | h
      · exact .inr ⟨Nat.le_refl _, by simp⟩
      · exact .inl h
    · refine .inr ⟨by omega, ?_⟩
      simp only [List.length_cons]
      omega

/-! ### The checked accesses -/

/-- The first of `n` addresses from `a` upward that is outside the write window, if any. -/
theorem Memory.writeBlock_ok (m : Memory) (a : Nat) (bs : List Byte)
    (h : bs ≠ [] → Config.progBase ≤ a ∧ a + bs.length ≤ Config.memSize) :
    m.writeBlock a bs = .ok (m.putBytes a bs) := by
  induction bs generalizing m a with
  | nil => rfl
  | cons b bs ih =>
    have h' := h (by simp)
    simp only [List.length_cons] at h'
    simp only [Memory.writeBlock, Memory.write]
    rw [if_neg (by omega)]
    exact ih _ _ fun _ => by omega

/-- A block write that starts in the write window and passes its end raises at its end. -/
theorem Memory.writeBlock_past (m : Memory) (a : Nat) (bs : List Byte) (h1 : Config.progBase ≤ a)
    (h2 : Config.memSize < a + bs.length) (h3 : bs ≠ []) :
    m.writeBlock a bs = .error (.outOfBounds (max a Config.memSize) .write) := by
  induction bs generalizing m a with
  | nil => exact absurd rfl h3
  | cons b bs ih =>
    simp only [List.length_cons] at h2
    simp only [Memory.writeBlock, Memory.write]
    by_cases ha : a ≥ Config.memSize
    · rw [if_pos (.inr ha), Nat.max_eq_left ha]
    · rw [if_neg (by omega), Nat.max_eq_right (by omega)]
      have := ih (m.put a b) (a + 1) (by omega) (by omega) (by rintro rfl; simp at h2; omega)
      rwa [Nat.max_eq_right (by omega)] at this

/-- A block write that starts below the write window raises at its first address. -/
theorem Memory.writeBlock_below (m : Memory) (a : Nat) (bs : List Byte) (h1 : a < Config.progBase)
    (h3 : bs ≠ []) : m.writeBlock a bs = .error (.outOfBounds a .write) := by
  cases bs with
  | nil => exact absurd rfl h3
  | cons b bs =>
    simp only [Memory.writeBlock, Memory.write]
    rw [if_pos (.inl h1)]

/-- What a block write answers: the bytes put, or the first address outside the write window. -/
theorem Memory.writeBlock_cases (m : Memory) (a : Nat) (bs : List Byte) :
    (m.writeBlock a bs = .ok (m.putBytes a bs) ∧
      (bs ≠ [] → Config.progBase ≤ a ∧ a + bs.length ≤ Config.memSize)) ∨
    ∃ d, m.writeBlock a bs = .error (.outOfBounds d .write) ∧ outsideWindow .write d ∧
      a ≤ d ∧ d < a + bs.length := by
  by_cases h3 : bs = []
  · subst h3; exact .inl ⟨rfl, fun h => absurd rfl h⟩
  · have hlen : 0 < bs.length := List.length_pos_iff.2 h3
    by_cases h1 : a < Config.progBase
    · exact .inr ⟨a, Memory.writeBlock_below m a bs h1 h3, .inl h1, Nat.le_refl _, by omega⟩
    · by_cases h2 : a + bs.length ≤ Config.memSize
      · exact .inl ⟨Memory.writeBlock_ok m a bs fun _ => ⟨by omega, h2⟩, fun _ => ⟨by omega, h2⟩⟩
      · exact .inr ⟨_, Memory.writeBlock_past m a bs (by omega) (by omega) h3, .inr (Nat.le_max_right _ _),
          Nat.le_max_left _ _, by omega⟩

/-- A block read inside memory answers the bytes, in order. -/
theorem Memory.readBlock_ok (m : Memory) (a n : Nat) (h : a + n ≤ Config.memSize ∨ n = 0) :
    m.readBlock a n = .ok ((List.range' a n).map m.byte) := by
  induction n generalizing a with
  | zero => rfl
  | succ n ih =>
    have h' : a + (n + 1) ≤ Config.memSize := by omega
    simp only [Memory.readBlock, Memory.read]
    rw [if_neg (by omega), ih (a + 1) (by omega)]
    simp [List.range'_succ]

/-- A block read that passes the end of memory raises at its end. -/
theorem Memory.readBlock_past (m : Memory) (a n : Nat) (h : Config.memSize < a + n) (hn : n ≠ 0) :
    m.readBlock a n = .error (.outOfBounds (max a Config.memSize) .read) := by
  induction n generalizing a with
  | zero => exact absurd rfl hn
  | succ n ih =>
    simp only [Memory.readBlock, Memory.read]
    by_cases ha : a ≥ Config.memSize
    · rw [if_pos ha, Nat.max_eq_left ha]
    · rw [if_neg ha, ih (a + 1) (by omega) (by omega)]
      simp only [Nat.max_eq_right (Nat.le_of_lt (Nat.lt_of_not_le ha)), Nat.max_eq_right (show a + 1 ≤ Config.memSize by omega)]

/-- What a block read answers: the bytes, or the first address outside memory. -/
theorem Memory.readBlock_cases (m : Memory) (a n : Nat) :
    (m.readBlock a n = .ok ((List.range' a n).map m.byte) ∧ (n ≠ 0 → a + n ≤ Config.memSize)) ∨
    ∃ d, m.readBlock a n = .error (.outOfBounds d .read) ∧ outsideWindow .read d ∧ a ≤ d ∧ d < a + n := by
  by_cases hn : n = 0
  · subst hn; exact .inl ⟨rfl, fun h => absurd rfl h⟩
  · by_cases h : a + n ≤ Config.memSize
    · exact .inl ⟨Memory.readBlock_ok m a n (.inl h), fun _ => h⟩
    · exact .inr ⟨_, Memory.readBlock_past m a n (by omega) hn, Nat.le_max_right _ _, Nat.le_max_left _ _,
        by omega⟩

end Sys2Proof.Machine
end

