-- ==== Sys2Proof/Laws/State.lean ====
section
/-! SUPPORT. One lemma per field and update of the state, true by rfl, so that no proof unfolds a record update; and
what each update does to a register. -/

namespace Sys2Proof.Machine

/-! ### State.setReg -/

@[simp] theorem State.setReg_i (s : State) (x : RegIx) (b : Byte) : (s.setReg x b).i = s.i := rfl
@[simp] theorem State.setReg_pc (s : State) (x : RegIx) (b : Byte) : (s.setReg x b).pc = s.pc := rfl
@[simp] theorem State.setReg_sp (s : State) (x : RegIx) (b : Byte) : (s.setReg x b).sp = s.sp := rfl
@[simp] theorem State.setReg_stack (s : State) (x : RegIx) (b : Byte) : (s.setReg x b).stack = s.stack := rfl
@[simp] theorem State.setReg_dt (s : State) (x : RegIx) (b : Byte) : (s.setReg x b).dt = s.dt := rfl
@[simp] theorem State.setReg_st (s : State) (x : RegIx) (b : Byte) : (s.setReg x b).st = s.st := rfl
@[simp] theorem State.setReg_mem (s : State) (x : RegIx) (b : Byte) : (s.setReg x b).mem = s.mem := rfl
@[simp] theorem State.setReg_mode (s : State) (x : RegIx) (b : Byte) : (s.setReg x b).mode = s.mode := rfl
@[simp] theorem State.setReg_display (s : State) (x : RegIx) (b : Byte) : (s.setReg x b).display = s.display := rfl
@[simp] theorem State.setReg_rng (s : State) (x : RegIx) (b : Byte) : (s.setReg x b).rng = s.rng := rfl
@[simp] theorem State.setReg_levels (s : State) (x : RegIx) (b : Byte) : (s.setReg x b).levels = s.levels := rfl
@[simp] theorem State.setReg_events (s : State) (x : RegIx) (b : Byte) : (s.setReg x b).events = s.events := rfl
@[simp] theorem State.setReg_ticks (s : State) (x : RegIx) (b : Byte) : (s.setReg x b).ticks = s.ticks := rfl

/-! ### State.jump -/

@[simp] theorem State.jump_v (s : State) (w : Word) : (s.jump w).v = s.v := rfl
@[simp] theorem State.jump_i (s : State) (w : Word) : (s.jump w).i = s.i := rfl
@[simp] theorem State.jump_pc (s : State) (w : Word) : (s.jump w).pc = w := rfl
@[simp] theorem State.jump_sp (s : State) (w : Word) : (s.jump w).sp = s.sp := rfl
@[simp] theorem State.jump_stack (s : State) (w : Word) : (s.jump w).stack = s.stack := rfl
@[simp] theorem State.jump_dt (s : State) (w : Word) : (s.jump w).dt = s.dt := rfl
@[simp] theorem State.jump_st (s : State) (w : Word) : (s.jump w).st = s.st := rfl
@[simp] theorem State.jump_mem (s : State) (w : Word) : (s.jump w).mem = s.mem := rfl
@[simp] theorem State.jump_mode (s : State) (w : Word) : (s.jump w).mode = s.mode := rfl
@[simp] theorem State.jump_display (s : State) (w : Word) : (s.jump w).display = s.display := rfl
@[simp] theorem State.jump_rng (s : State) (w : Word) : (s.jump w).rng = s.rng := rfl
@[simp] theorem State.jump_levels (s : State) (w : Word) : (s.jump w).levels = s.levels := rfl
@[simp] theorem State.jump_events (s : State) (w : Word) : (s.jump w).events = s.events := rfl
@[simp] theorem State.jump_ticks (s : State) (w : Word) : (s.jump w).ticks = s.ticks := rfl
@[simp] theorem State.jump_reg (s : State) (w : Word) (r : RegIx) : (s.jump w).reg r = s.reg r := rfl

/-! ### State.advance -/

@[simp] theorem State.advance_v (s : State) : s.advance.v = s.v := rfl
@[simp] theorem State.advance_i (s : State) : s.advance.i = s.i := rfl
@[simp] theorem State.advance_pc (s : State) : s.advance.pc = s.pc + 2 := rfl
@[simp] theorem State.advance_sp (s : State) : s.advance.sp = s.sp := rfl
@[simp] theorem State.advance_stack (s : State) : s.advance.stack = s.stack := rfl
@[simp] theorem State.advance_dt (s : State) : s.advance.dt = s.dt := rfl
@[simp] theorem State.advance_st (s : State) : s.advance.st = s.st := rfl
@[simp] theorem State.advance_mem (s : State) : s.advance.mem = s.mem := rfl
@[simp] theorem State.advance_mode (s : State) : s.advance.mode = s.mode := rfl
@[simp] theorem State.advance_display (s : State) : s.advance.display = s.display := rfl
@[simp] theorem State.advance_rng (s : State) : s.advance.rng = s.rng := rfl
@[simp] theorem State.advance_levels (s : State) : s.advance.levels = s.levels := rfl
@[simp] theorem State.advance_events (s : State) : s.advance.events = s.events := rfl
@[simp] theorem State.advance_ticks (s : State) : s.advance.ticks = s.ticks := rfl
@[simp] theorem State.advance_reg (s : State) (r : RegIx) : s.advance.reg r = s.reg r := rfl

/-! ### State.skipIf -/

@[simp] theorem State.skipIf_v (s : State) (c : Bool) : (s.skipIf c).v = s.v := rfl
@[simp] theorem State.skipIf_i (s : State) (c : Bool) : (s.skipIf c).i = s.i := rfl
@[simp] theorem State.skipIf_pc (s : State) (c : Bool) : (s.skipIf c).pc = if c then s.pc + 4 else s.pc + 2 := rfl
@[simp] theorem State.skipIf_sp (s : State) (c : Bool) : (s.skipIf c).sp = s.sp := rfl
@[simp] theorem State.skipIf_stack (s : State) (c : Bool) : (s.skipIf c).stack = s.stack := rfl
@[simp] theorem State.skipIf_dt (s : State) (c : Bool) : (s.skipIf c).dt = s.dt := rfl
@[simp] theorem State.skipIf_st (s : State) (c : Bool) : (s.skipIf c).st = s.st := rfl
@[simp] theorem State.skipIf_mem (s : State) (c : Bool) : (s.skipIf c).mem = s.mem := rfl
@[simp] theorem State.skipIf_mode (s : State) (c : Bool) : (s.skipIf c).mode = s.mode := rfl
@[simp] theorem State.skipIf_display (s : State) (c : Bool) : (s.skipIf c).display = s.display := rfl
@[simp] theorem State.skipIf_rng (s : State) (c : Bool) : (s.skipIf c).rng = s.rng := rfl
@[simp] theorem State.skipIf_levels (s : State) (c : Bool) : (s.skipIf c).levels = s.levels := rfl
@[simp] theorem State.skipIf_events (s : State) (c : Bool) : (s.skipIf c).events = s.events := rfl
@[simp] theorem State.skipIf_ticks (s : State) (c : Bool) : (s.skipIf c).ticks = s.ticks := rfl
@[simp] theorem State.skipIf_reg (s : State) (c : Bool) (r : RegIx) : (s.skipIf c).reg r = s.reg r := rfl

/-! ### State.push -/

@[simp] theorem State.push_v (s : State) (w : Word) : (s.push w).v = s.v := rfl
@[simp] theorem State.push_i (s : State) (w : Word) : (s.push w).i = s.i := rfl
@[simp] theorem State.push_pc (s : State) (w : Word) : (s.push w).pc = s.pc := rfl
@[simp] theorem State.push_sp (s : State) (w : Word) : (s.push w).sp = BitVec.ofNat 8 ((s.sp.toNat + 1) % 16) := rfl
@[simp] theorem State.push_stack (s : State) (w : Word) : (s.push w).stack = s.stack.set (stackSlot s.sp).val w (stackSlot s.sp).isLt := rfl
@[simp] theorem State.push_dt (s : State) (w : Word) : (s.push w).dt = s.dt := rfl
@[simp] theorem State.push_st (s : State) (w : Word) : (s.push w).st = s.st := rfl
@[simp] theorem State.push_mem (s : State) (w : Word) : (s.push w).mem = s.mem := rfl
@[simp] theorem State.push_mode (s : State) (w : Word) : (s.push w).mode = s.mode := rfl
@[simp] theorem State.push_display (s : State) (w : Word) : (s.push w).display = s.display := rfl
@[simp] theorem State.push_rng (s : State) (w : Word) : (s.push w).rng = s.rng := rfl
@[simp] theorem State.push_levels (s : State) (w : Word) : (s.push w).levels = s.levels := rfl
@[simp] theorem State.push_events (s : State) (w : Word) : (s.push w).events = s.events := rfl
@[simp] theorem State.push_ticks (s : State) (w : Word) : (s.push w).ticks = s.ticks := rfl
@[simp] theorem State.push_reg (s : State) (w : Word) (r : RegIx) : (s.push w).reg r = s.reg r := rfl

/-! ### State.pop -/

@[simp] theorem State.pop_v (s : State) : s.pop.v = s.v := rfl
@[simp] theorem State.pop_i (s : State) : s.pop.i = s.i := rfl
@[simp] theorem State.pop_pc (s : State) : s.pop.pc = s.pc := rfl
@[simp] theorem State.pop_sp (s : State) : s.pop.sp = poppedSp s.sp := rfl
@[simp] theorem State.pop_stack (s : State) : s.pop.stack = s.stack := rfl
@[simp] theorem State.pop_dt (s : State) : s.pop.dt = s.dt := rfl
@[simp] theorem State.pop_st (s : State) : s.pop.st = s.st := rfl
@[simp] theorem State.pop_mem (s : State) : s.pop.mem = s.mem := rfl
@[simp] theorem State.pop_mode (s : State) : s.pop.mode = s.mode := rfl
@[simp] theorem State.pop_display (s : State) : s.pop.display = s.display := rfl
@[simp] theorem State.pop_rng (s : State) : s.pop.rng = s.rng := rfl
@[simp] theorem State.pop_levels (s : State) : s.pop.levels = s.levels := rfl
@[simp] theorem State.pop_events (s : State) : s.pop.events = s.events := rfl
@[simp] theorem State.pop_ticks (s : State) : s.pop.ticks = s.ticks := rfl
@[simp] theorem State.pop_reg (s : State) (r : RegIx) : s.pop.reg r = s.reg r := rfl

/-! ### State.setFlagThenReg -/

@[simp] theorem State.setFlagThenReg_i (s : State) (f : Byte) (x : RegIx) (b : Byte) : (s.setFlagThenReg f x b).i = s.i := rfl
@[simp] theorem State.setFlagThenReg_pc (s : State) (f : Byte) (x : RegIx) (b : Byte) : (s.setFlagThenReg f x b).pc = s.pc := rfl
@[simp] theorem State.setFlagThenReg_sp (s : State) (f : Byte) (x : RegIx) (b : Byte) : (s.setFlagThenReg f x b).sp = s.sp := rfl
@[simp] theorem State.setFlagThenReg_stack (s : State) (f : Byte) (x : RegIx) (b : Byte) : (s.setFlagThenReg f x b).stack = s.stack := rfl
@[simp] theorem State.setFlagThenReg_dt (s : State) (f : Byte) (x : RegIx) (b : Byte) : (s.setFlagThenReg f x b).dt = s.dt := rfl
@[simp] theorem State.setFlagThenReg_st (s : State) (f : Byte) (x : RegIx) (b : Byte) : (s.setFlagThenReg f x b).st = s.st := rfl
@[simp] theorem State.setFlagThenReg_mem (s : State) (f : Byte) (x : RegIx) (b : Byte) : (s.setFlagThenReg f x b).mem = s.mem := rfl
@[simp] theorem State.setFlagThenReg_mode (s : State) (f : Byte) (x : RegIx) (b : Byte) : (s.setFlagThenReg f x b).mode = s.mode := rfl
@[simp] theorem State.setFlagThenReg_display (s : State) (f : Byte) (x : RegIx) (b : Byte) : (s.setFlagThenReg f x b).display = s.display := rfl
@[simp] theorem State.setFlagThenReg_rng (s : State) (f : Byte) (x : RegIx) (b : Byte) : (s.setFlagThenReg f x b).rng = s.rng := rfl
@[simp] theorem State.setFlagThenReg_levels (s : State) (f : Byte) (x : RegIx) (b : Byte) : (s.setFlagThenReg f x b).levels = s.levels := rfl
@[simp] theorem State.setFlagThenReg_events (s : State) (f : Byte) (x : RegIx) (b : Byte) : (s.setFlagThenReg f x b).events = s.events := rfl
@[simp] theorem State.setFlagThenReg_ticks (s : State) (f : Byte) (x : RegIx) (b : Byte) : (s.setFlagThenReg f x b).ticks = s.ticks := rfl

/-! ### State.deliverKey -/

@[simp] theorem State.deliverKey_i (s : State) (x : RegIx) (k : Key) : (s.deliverKey x k).i = s.i := rfl
@[simp] theorem State.deliverKey_pc (s : State) (x : RegIx) (k : Key) : (s.deliverKey x k).pc = s.pc + 2 := rfl
@[simp] theorem State.deliverKey_sp (s : State) (x : RegIx) (k : Key) : (s.deliverKey x k).sp = s.sp := rfl
@[simp] theorem State.deliverKey_stack (s : State) (x : RegIx) (k : Key) : (s.deliverKey x k).stack = s.stack := rfl
@[simp] theorem State.deliverKey_dt (s : State) (x : RegIx) (k : Key) : (s.deliverKey x k).dt = s.dt := rfl
@[simp] theorem State.deliverKey_st (s : State) (x : RegIx) (k : Key) : (s.deliverKey x k).st = s.st := rfl
@[simp] theorem State.deliverKey_mem (s : State) (x : RegIx) (k : Key) : (s.deliverKey x k).mem = s.mem := rfl
@[simp] theorem State.deliverKey_mode (s : State) (x : RegIx) (k : Key) : (s.deliverKey x k).mode = s.mode := rfl
@[simp] theorem State.deliverKey_display (s : State) (x : RegIx) (k : Key) : (s.deliverKey x k).display = s.display := rfl
@[simp] theorem State.deliverKey_rng (s : State) (x : RegIx) (k : Key) : (s.deliverKey x k).rng = s.rng := rfl
@[simp] theorem State.deliverKey_levels (s : State) (x : RegIx) (k : Key) : (s.deliverKey x k).levels = s.levels := rfl
@[simp] theorem State.deliverKey_events (s : State) (x : RegIx) (k : Key) : (s.deliverKey x k).events = s.events := rfl
@[simp] theorem State.deliverKey_ticks (s : State) (x : RegIx) (k : Key) : (s.deliverKey x k).ticks = s.ticks := rfl

/-! ### takeFault -/

@[simp] theorem takeFault_v (s : State) (e : Raise) : (takeFault e s).v = s.v := rfl
@[simp] theorem takeFault_i (s : State) (e : Raise) : (takeFault e s).i = s.i := rfl
@[simp] theorem takeFault_pc (s : State) (e : Raise) : (takeFault e s).pc = s.pc := rfl
@[simp] theorem takeFault_sp (s : State) (e : Raise) : (takeFault e s).sp = s.sp := rfl
@[simp] theorem takeFault_stack (s : State) (e : Raise) : (takeFault e s).stack = s.stack := rfl
@[simp] theorem takeFault_dt (s : State) (e : Raise) : (takeFault e s).dt = s.dt := rfl
@[simp] theorem takeFault_st (s : State) (e : Raise) : (takeFault e s).st = s.st := rfl
@[simp] theorem takeFault_mem (s : State) (e : Raise) : (takeFault e s).mem = s.mem := rfl
@[simp] theorem takeFault_mode (s : State) (e : Raise) : (takeFault e s).mode = .faulted e.record := rfl
@[simp] theorem takeFault_display (s : State) (e : Raise) : (takeFault e s).display = s.display := rfl
@[simp] theorem takeFault_rng (s : State) (e : Raise) : (takeFault e s).rng = s.rng := rfl
@[simp] theorem takeFault_levels (s : State) (e : Raise) : (takeFault e s).levels = s.levels := rfl
@[simp] theorem takeFault_events (s : State) (e : Raise) : (takeFault e s).events = s.events := rfl
@[simp] theorem takeFault_ticks (s : State) (e : Raise) : (takeFault e s).ticks = s.ticks := rfl
@[simp] theorem takeFault_reg (s : State) (e : Raise) (r : RegIx) : (takeFault e s).reg r = s.reg r := rfl

/-! ### drawRows -/

@[simp] theorem drawRows_i (s : State) (x y : RegIx) (rows : List Byte) : (drawRows x y rows s).i = s.i := rfl
@[simp] theorem drawRows_pc (s : State) (x y : RegIx) (rows : List Byte) : (drawRows x y rows s).pc = s.pc := rfl
@[simp] theorem drawRows_sp (s : State) (x y : RegIx) (rows : List Byte) : (drawRows x y rows s).sp = s.sp := rfl
@[simp] theorem drawRows_stack (s : State) (x y : RegIx) (rows : List Byte) : (drawRows x y rows s).stack = s.stack := rfl
@[simp] theorem drawRows_dt (s : State) (x y : RegIx) (rows : List Byte) : (drawRows x y rows s).dt = s.dt := rfl
@[simp] theorem drawRows_st (s : State) (x y : RegIx) (rows : List Byte) : (drawRows x y rows s).st = s.st := rfl
@[simp] theorem drawRows_mem (s : State) (x y : RegIx) (rows : List Byte) : (drawRows x y rows s).mem = s.mem := rfl
@[simp] theorem drawRows_mode (s : State) (x y : RegIx) (rows : List Byte) : (drawRows x y rows s).mode = s.mode := rfl
@[simp] theorem drawRows_display (s : State) (x y : RegIx) (rows : List Byte) : (drawRows x y rows s).display = (xorBlit s.display (s.reg x) (s.reg y) rows).1 := rfl
@[simp] theorem drawRows_rng (s : State) (x y : RegIx) (rows : List Byte) : (drawRows x y rows s).rng = s.rng := rfl
@[simp] theorem drawRows_levels (s : State) (x y : RegIx) (rows : List Byte) : (drawRows x y rows s).levels = s.levels := rfl
@[simp] theorem drawRows_events (s : State) (x y : RegIx) (rows : List Byte) : (drawRows x y rows s).events = s.events := rfl
@[simp] theorem drawRows_ticks (s : State) (x y : RegIx) (rows : List Byte) : (drawRows x y rows s).ticks = s.ticks := rfl

/-! ### rngAnswer -/

@[simp] theorem rngAnswer_v (s : State) : (rngAnswer s).2.v = s.v := rfl
@[simp] theorem rngAnswer_i (s : State) : (rngAnswer s).2.i = s.i := rfl
@[simp] theorem rngAnswer_pc (s : State) : (rngAnswer s).2.pc = s.pc := rfl
@[simp] theorem rngAnswer_sp (s : State) : (rngAnswer s).2.sp = s.sp := rfl
@[simp] theorem rngAnswer_stack (s : State) : (rngAnswer s).2.stack = s.stack := rfl
@[simp] theorem rngAnswer_dt (s : State) : (rngAnswer s).2.dt = s.dt := rfl
@[simp] theorem rngAnswer_st (s : State) : (rngAnswer s).2.st = s.st := rfl
@[simp] theorem rngAnswer_mem (s : State) : (rngAnswer s).2.mem = s.mem := rfl
@[simp] theorem rngAnswer_mode (s : State) : (rngAnswer s).2.mode = s.mode := rfl
@[simp] theorem rngAnswer_display (s : State) : (rngAnswer s).2.display = s.display := rfl
@[simp] theorem rngAnswer_rng (s : State) : (rngAnswer s).2.rng = (s.rng.answer Config.rngByte).2 := rfl
@[simp] theorem rngAnswer_levels (s : State) : (rngAnswer s).2.levels = s.levels := rfl
@[simp] theorem rngAnswer_events (s : State) : (rngAnswer s).2.events = s.events := rfl
@[simp] theorem rngAnswer_ticks (s : State) : (rngAnswer s).2.ticks = s.ticks := rfl
@[simp] theorem rngAnswer_reg (s : State) (r : RegIx) : (rngAnswer s).2.reg r = s.reg r := rfl

/-! ### heldAnswer -/

@[simp] theorem heldAnswer_v (s : State) (k : Key) : (heldAnswer s k).2.v = s.v := rfl
@[simp] theorem heldAnswer_i (s : State) (k : Key) : (heldAnswer s k).2.i = s.i := rfl
@[simp] theorem heldAnswer_pc (s : State) (k : Key) : (heldAnswer s k).2.pc = s.pc := rfl
@[simp] theorem heldAnswer_sp (s : State) (k : Key) : (heldAnswer s k).2.sp = s.sp := rfl
@[simp] theorem heldAnswer_stack (s : State) (k : Key) : (heldAnswer s k).2.stack = s.stack := rfl
@[simp] theorem heldAnswer_dt (s : State) (k : Key) : (heldAnswer s k).2.dt = s.dt := rfl
@[simp] theorem heldAnswer_st (s : State) (k : Key) : (heldAnswer s k).2.st = s.st := rfl
@[simp] theorem heldAnswer_mem (s : State) (k : Key) : (heldAnswer s k).2.mem = s.mem := rfl
@[simp] theorem heldAnswer_mode (s : State) (k : Key) : (heldAnswer s k).2.mode = s.mode := rfl
@[simp] theorem heldAnswer_display (s : State) (k : Key) : (heldAnswer s k).2.display = s.display := rfl
@[simp] theorem heldAnswer_rng (s : State) (k : Key) : (heldAnswer s k).2.rng = s.rng := rfl
@[simp] theorem heldAnswer_levels (s : State) (k : Key) : (heldAnswer s k).2.levels = (s.levels.answer Config.heldKeys).2 := rfl
@[simp] theorem heldAnswer_events (s : State) (k : Key) : (heldAnswer s k).2.events = s.events := rfl
@[simp] theorem heldAnswer_ticks (s : State) (k : Key) : (heldAnswer s k).2.ticks = s.ticks := rfl
@[simp] theorem heldAnswer_reg (s : State) (k : Key) (r : RegIx) : (heldAnswer s k).2.reg r = s.reg r := rfl

/-! ### eventAnswer -/

@[simp] theorem eventAnswer_v (s : State) : (eventAnswer s).2.v = s.v := rfl
@[simp] theorem eventAnswer_i (s : State) : (eventAnswer s).2.i = s.i := rfl
@[simp] theorem eventAnswer_pc (s : State) : (eventAnswer s).2.pc = s.pc := rfl
@[simp] theorem eventAnswer_sp (s : State) : (eventAnswer s).2.sp = s.sp := rfl
@[simp] theorem eventAnswer_stack (s : State) : (eventAnswer s).2.stack = s.stack := rfl
@[simp] theorem eventAnswer_dt (s : State) : (eventAnswer s).2.dt = s.dt := rfl
@[simp] theorem eventAnswer_st (s : State) : (eventAnswer s).2.st = s.st := rfl
@[simp] theorem eventAnswer_mem (s : State) : (eventAnswer s).2.mem = s.mem := rfl
@[simp] theorem eventAnswer_mode (s : State) : (eventAnswer s).2.mode = s.mode := rfl
@[simp] theorem eventAnswer_display (s : State) : (eventAnswer s).2.display = s.display := rfl
@[simp] theorem eventAnswer_rng (s : State) : (eventAnswer s).2.rng = s.rng := rfl
@[simp] theorem eventAnswer_levels (s : State) : (eventAnswer s).2.levels = s.levels := rfl
@[simp] theorem eventAnswer_events (s : State) : (eventAnswer s).2.events = (s.events.answer Config.keyEvent).2 := rfl
@[simp] theorem eventAnswer_ticks (s : State) : (eventAnswer s).2.ticks = s.ticks := rfl
@[simp] theorem eventAnswer_reg (s : State) (r : RegIx) : (eventAnswer s).2.reg r = s.reg r := rfl

/-! ### tick -/

@[simp] theorem tick_v (s : State) : (tick s).v = s.v := rfl
@[simp] theorem tick_i (s : State) : (tick s).i = s.i := rfl
@[simp] theorem tick_pc (s : State) : (tick s).pc = s.pc := rfl
@[simp] theorem tick_sp (s : State) : (tick s).sp = s.sp := rfl
@[simp] theorem tick_stack (s : State) : (tick s).stack = s.stack := rfl
@[simp] theorem tick_dt (s : State) : (tick s).dt = decTimer s.dt := rfl
@[simp] theorem tick_st (s : State) : (tick s).st = decTimer s.st := rfl
@[simp] theorem tick_mem (s : State) : (tick s).mem = s.mem := rfl
@[simp] theorem tick_mode (s : State) : (tick s).mode = s.mode := rfl
@[simp] theorem tick_display (s : State) : (tick s).display = s.display := rfl
@[simp] theorem tick_rng (s : State) : (tick s).rng = s.rng := rfl
@[simp] theorem tick_levels (s : State) : (tick s).levels = s.levels := rfl
@[simp] theorem tick_events (s : State) : (tick s).events = s.events := rfl
@[simp] theorem tick_ticks (s : State) : (tick s).ticks = s.ticks := rfl
@[simp] theorem tick_reg (s : State) (r : RegIx) : (tick s).reg r = s.reg r := rfl

/-! ### tickTimes -/

@[simp] theorem tickTimes_v (s : State) (n : Nat) : (tickTimes n s).v = s.v := rfl
@[simp] theorem tickTimes_i (s : State) (n : Nat) : (tickTimes n s).i = s.i := rfl
@[simp] theorem tickTimes_pc (s : State) (n : Nat) : (tickTimes n s).pc = s.pc := rfl
@[simp] theorem tickTimes_sp (s : State) (n : Nat) : (tickTimes n s).sp = s.sp := rfl
@[simp] theorem tickTimes_stack (s : State) (n : Nat) : (tickTimes n s).stack = s.stack := rfl
@[simp] theorem tickTimes_dt (s : State) (n : Nat) : (tickTimes n s).dt = countDown n s.dt := rfl
@[simp] theorem tickTimes_st (s : State) (n : Nat) : (tickTimes n s).st = countDown n s.st := rfl
@[simp] theorem tickTimes_mem (s : State) (n : Nat) : (tickTimes n s).mem = s.mem := rfl
@[simp] theorem tickTimes_mode (s : State) (n : Nat) : (tickTimes n s).mode = s.mode := rfl
@[simp] theorem tickTimes_display (s : State) (n : Nat) : (tickTimes n s).display = s.display := rfl
@[simp] theorem tickTimes_rng (s : State) (n : Nat) : (tickTimes n s).rng = s.rng := rfl
@[simp] theorem tickTimes_levels (s : State) (n : Nat) : (tickTimes n s).levels = s.levels := rfl
@[simp] theorem tickTimes_events (s : State) (n : Nat) : (tickTimes n s).events = s.events := rfl
@[simp] theorem tickTimes_ticks (s : State) (n : Nat) : (tickTimes n s).ticks = s.ticks := rfl
@[simp] theorem tickTimes_reg (s : State) (n : Nat) (r : RegIx) : (tickTimes n s).reg r = s.reg r := rfl

/-! ### ticksBeforeStep -/

@[simp] theorem ticksBeforeStep_v (s : State) : (ticksBeforeStep s).v = s.v := rfl
@[simp] theorem ticksBeforeStep_i (s : State) : (ticksBeforeStep s).i = s.i := rfl
@[simp] theorem ticksBeforeStep_pc (s : State) : (ticksBeforeStep s).pc = s.pc := rfl
@[simp] theorem ticksBeforeStep_sp (s : State) : (ticksBeforeStep s).sp = s.sp := rfl
@[simp] theorem ticksBeforeStep_stack (s : State) : (ticksBeforeStep s).stack = s.stack := rfl
@[simp] theorem ticksBeforeStep_dt (s : State) : (ticksBeforeStep s).dt = countDown (s.ticks.answer Config.ticksBefore).1 s.dt := rfl
@[simp] theorem ticksBeforeStep_st (s : State) : (ticksBeforeStep s).st = countDown (s.ticks.answer Config.ticksBefore).1 s.st := rfl
@[simp] theorem ticksBeforeStep_mem (s : State) : (ticksBeforeStep s).mem = s.mem := rfl
@[simp] theorem ticksBeforeStep_mode (s : State) : (ticksBeforeStep s).mode = s.mode := rfl
@[simp] theorem ticksBeforeStep_display (s : State) : (ticksBeforeStep s).display = s.display := rfl
@[simp] theorem ticksBeforeStep_rng (s : State) : (ticksBeforeStep s).rng = s.rng := rfl
@[simp] theorem ticksBeforeStep_levels (s : State) : (ticksBeforeStep s).levels = s.levels := rfl
@[simp] theorem ticksBeforeStep_events (s : State) : (ticksBeforeStep s).events = s.events := rfl
@[simp] theorem ticksBeforeStep_ticks (s : State) : (ticksBeforeStep s).ticks = (s.ticks.answer Config.ticksBefore).2 := rfl
@[simp] theorem ticksBeforeStep_reg (s : State) (r : RegIx) : (ticksBeforeStep s).reg r = s.reg r := rfl

/-! ### What the outside parties answer does not depend on the registers -/

@[simp] theorem rngAnswer_setReg (s : State) (x : RegIx) (b : Byte) :
    (rngAnswer (s.setReg x b)).1 = (rngAnswer s).1 := rfl

@[simp] theorem heldAnswer_setReg (s : State) (x : RegIx) (b : Byte) (k : Key) :
    (heldAnswer (s.setReg x b) k).1 = (heldAnswer s k).1 := rfl

@[simp] theorem eventAnswer_setReg (s : State) (x : RegIx) (b : Byte) :
    (eventAnswer (s.setReg x b)).1 = (eventAnswer s).1 := rfl

/-! ### The registers -/

/-- A flag as a number. -/
@[simp] theorem boolToBit_toNat (c : Bool) : (boolToBit c).toNat = if c then 1 else 0 := by cases c <;> rfl

@[simp] theorem flagReg_eq : Config.flagReg = 15 := rfl

@[simp] theorem State.setReg_reg (s : State) (x : RegIx) (b : Byte) (r : RegIx) :
    (s.setReg x b).reg r = if r = x then b else s.reg r := by
  simp [State.setReg, State.reg, Vector.getElem_set, BitVec.toNat_inj, eq_comm]

@[simp] theorem State.setFlagThenReg_reg (s : State) (f : Byte) (x : RegIx) (b : Byte) (r : RegIx) :
    (s.setFlagThenReg f x b).reg r = if r = x then b else if r = 15 then f else s.reg r := by
  simp only [State.setFlagThenReg, State.setReg_reg]
  rfl

@[simp] theorem State.deliverKey_reg (s : State) (x : RegIx) (k : Key) (r : RegIx) :
    (s.deliverKey x k).reg r = if r = x then k.zeroExtend 8 else s.reg r := by
  simp [State.deliverKey]

@[simp] theorem drawRows_reg (s : State) (x y : RegIx) (rows : List Byte) (r : RegIx) :
    (drawRows x y rows s).reg r =
      if r = 15 then boolToBit (xorBlit s.display (s.reg x) (s.reg y) rows).2 else s.reg r := by
  simp only [drawRows, State.setReg_reg]
  rfl

/-- Two states whose registers all read the same hold the same register file. -/
theorem State.v_ext {s t : State} (h : ∀ r, t.reg r = s.reg r) : t.v = s.v := by
  apply Vector.ext
  intro n hn
  have := h (BitVec.ofNat 4 n)
  simpa [State.reg, Nat.mod_eq_of_lt hn] using this

/-! ### Loading a block of registers -/

@[simp] theorem State.setRegsFrom_i (s : State) (k : Nat) (bs : List Byte) :
    (s.setRegsFrom k bs).i = s.i := by
  induction bs generalizing s k with
  | nil => rfl
  | cons b bs ih => simp [State.setRegsFrom, ih]

@[simp] theorem State.setRegsFrom_pc (s : State) (k : Nat) (bs : List Byte) :
    (s.setRegsFrom k bs).pc = s.pc := by
  induction bs generalizing s k with
  | nil => rfl
  | cons b bs ih => simp [State.setRegsFrom, ih]

@[simp] theorem State.setRegsFrom_sp (s : State) (k : Nat) (bs : List Byte) :
    (s.setRegsFrom k bs).sp = s.sp := by
  induction bs generalizing s k with
  | nil => rfl
  | cons b bs ih => simp [State.setRegsFrom, ih]

@[simp] theorem State.setRegsFrom_stack (s : State) (k : Nat) (bs : List Byte) :
    (s.setRegsFrom k bs).stack = s.stack := by
  induction bs generalizing s k with
  | nil => rfl
  | cons b bs ih => simp [State.setRegsFrom, ih]

@[simp] theorem State.setRegsFrom_dt (s : State) (k : Nat) (bs : List Byte) :
    (s.setRegsFrom k bs).dt = s.dt := by
  induction bs generalizing s k with
  | nil => rfl
  | cons b bs ih => simp [State.setRegsFrom, ih]

@[simp] theorem State.setRegsFrom_st (s : State) (k : Nat) (bs : List Byte) :
    (s.setRegsFrom k bs).st = s.st := by
  induction bs generalizing s k with
  | nil => rfl
  | cons b bs ih => simp [State.setRegsFrom, ih]

@[simp] theorem State.setRegsFrom_mem (s : State) (k : Nat) (bs : List Byte) :
    (s.setRegsFrom k bs).mem = s.mem := by
  induction bs generalizing s k with
  | nil => rfl
  | cons b bs ih => simp [State.setRegsFrom, ih]

@[simp] theorem State.setRegsFrom_mode (s : State) (k : Nat) (bs : List Byte) :
    (s.setRegsFrom k bs).mode = s.mode := by
  induction bs generalizing s k with
  | nil => rfl
  | cons b bs ih => simp [State.setRegsFrom, ih]

@[simp] theorem State.setRegsFrom_display (s : State) (k : Nat) (bs : List Byte) :
    (s.setRegsFrom k bs).display = s.display := by
  induction bs generalizing s k with
  | nil => rfl
  | cons b bs ih => simp [State.setRegsFrom, ih]

@[simp] theorem State.setRegsFrom_rng (s : State) (k : Nat) (bs : List Byte) :
    (s.setRegsFrom k bs).rng = s.rng := by
  induction bs generalizing s k with
  | nil => rfl
  | cons b bs ih => simp [State.setRegsFrom, ih]

@[simp] theorem State.setRegsFrom_levels (s : State) (k : Nat) (bs : List Byte) :
    (s.setRegsFrom k bs).levels = s.levels := by
  induction bs generalizing s k with
  | nil => rfl
  | cons b bs ih => simp [State.setRegsFrom, ih]

@[simp] theorem State.setRegsFrom_events (s : State) (k : Nat) (bs : List Byte) :
    (s.setRegsFrom k bs).events = s.events := by
  induction bs generalizing s k with
  | nil => rfl
  | cons b bs ih => simp [State.setRegsFrom, ih]

@[simp] theorem State.setRegsFrom_ticks (s : State) (k : Nat) (bs : List Byte) :
    (s.setRegsFrom k bs).ticks = s.ticks := by
  induction bs generalizing s k with
  | nil => rfl
  | cons b bs ih => simp [State.setRegsFrom, ih]

/-- Register `r` after a block load from `V[k]` upward: the byte at its place, or its old value. -/
theorem State.setRegsFrom_reg (s : State) (k : Nat) (bs : List Byte) (hk : k + bs.length ≤ 16) (r : RegIx) :
    (s.setRegsFrom k bs).reg r =
      if k ≤ r.toNat ∧ r.toNat < k + bs.length then bs.getD (r.toNat - k) 0 else s.reg r := by
  induction bs generalizing s k with
  | nil => simp [State.setRegsFrom]
  | cons b bs ih =>
    have hk' : k + 1 + bs.length ≤ 16 := by simpa [Nat.add_assoc, Nat.add_comm 1] using hk
    simp only [State.setRegsFrom, ih _ _ hk', State.setReg_reg, List.length_cons]
    have hr : r = BitVec.ofNat 4 k ↔ r.toNat = k := by
      rw [← BitVec.toNat_inj, BitVec.toNat_ofNat]
      simp only [List.length_cons] at hk
      rw [Nat.mod_eq_of_lt (by omega)]
    rcases Nat.lt_trichotomy r.toNat k with h | h | h
    · rw [if_neg (by omega), if_neg (by rw [hr]; omega), if_neg (by omega)]
    · rw [if_neg (by omega), if_pos (hr.2 h), if_pos (by omega), h, Nat.sub_self, List.getD_cons_zero]
    · by_cases h2 : r.toNat < k + 1 + bs.length
      · rw [if_pos (by omega), if_pos (by omega), show r.toNat - k = r.toNat - (k + 1) + 1 by omega,
          List.getD_cons_succ]
      · rw [if_neg (by omega), if_neg (by rw [hr]; omega), if_neg (by omega)]

end Sys2Proof.Machine
end

