-- ==== Sys2Proof/Laws/Ops.lean ====
section
/-! SUPPORT. The shared operations, one lemma each that says what it can do: answers from outside, timers, the call
stack, fetch, and the instructions that can fault. -/

namespace Sys2Proof.Machine

/-! ### Answers from outside -/

/-- Every feed has a next answer. -/
theorem Feed.exists_nextIs {α : Type} (free : Nat → α) (f : Feed α) : ∃ a, f.NextIs free a := by
  rcases f with ⟨_ | ⟨a, q⟩, n⟩
  · exact ⟨free n, .inr ⟨rfl, rfl⟩⟩
  · exact ⟨a, .inl rfl⟩

/-- What a feed answers, and what is left of it. -/
theorem Feed.answer_of_nextIs {α : Type} {free : Nat → α} {f : Feed α} {a : α} (h : f.NextIs free a) :
    f.answer free = (a, f.consumed) := by
  rcases f with ⟨_ | ⟨b, q⟩, n⟩
  · rcases h with h | ⟨-, h⟩
    · cases h
    · subst h; rfl
  · rcases h with h | ⟨h, -⟩
    · cases h; rfl
    · cases h

/-! ### Timers -/

theorem decTimer_toNat (t : Byte) : (decTimer t).toNat = t.toNat - 1 := by
  unfold decTimer
  split
  · rw [BitVec.toNat_sub]
    have := t.isLt
    simp only [BitVec.ofNat_eq_ofNat, BitVec.toNat_ofNat]
    omega
  · omega

theorem countDown_toNat (n : Nat) (t : Byte) : (countDown n t).toNat = t.toNat - n := by
  unfold countDown
  have := t.isLt
  split
  · subst t; simp
  · rw [BitVec.toNat_ofNat, Nat.mod_eq_of_lt (by omega)]

theorem countDown_zero (t : Byte) : countDown 0 t = t := BitVec.eq_of_toNat_eq (by simp [countDown_toNat])

theorem countDown_succ (n : Nat) (t : Byte) : countDown (n + 1) t = countDown n (decTimer t) :=
  BitVec.eq_of_toNat_eq (by simp only [countDown_toNat, decTimer_toNat]; omega)

/-- `n` ticks in one go are `n` ticks one after another. -/
theorem tickTimes_succ (n : Nat) (s : State) : tickTimes (n + 1) s = tickTimes n (tick s) := by
  simp [tickTimes, tick, countDown_succ]

theorem tickTimes_zero (s : State) : tickTimes 0 s = s := by simp [tickTimes, countDown_zero]

/-! ### The call stack -/

theorem stackSlot_val (sp : BitVec 8) : (stackSlot sp).val = sp.toNat % 16 := rfl

theorem poppedSp_toNat (sp : BitVec 8) : (poppedSp sp).toNat = (sp.toNat + 15) % 16 := by
  simp only [poppedSp, BitVec.toNat_ofNat]
  omega

theorem State.push_sp_toNat (s : State) (w : Word) : (s.push w).sp.toNat = (s.sp.toNat + 1) % 16 := by
  simp only [State.push_sp, BitVec.toNat_ofNat]
  omega

/-- The entries of the call stack after a push. -/
theorem State.push_stack_getElem (s : State) (w : Word) (j : Nat) (hj : j < 16) :
    (s.push w).stack[j] = if s.sp.toNat % 16 = j then w else s.stack[j] := by
  simp [State.push_stack, Vector.getElem_set, stackSlot_val]

/-! ### Fetch -/

/-- A fetch inside memory answers the big-endian opcode. -/
theorem fetch_ok (s : State) (h : s.pc.toNat + 1 < Config.memSize) :
    fetch s = .ok (opcodeOf (s.mem.byte s.pc.toNat) (s.mem.byte (s.pc.toNat + 1))) := by
  simp only [fetch, Memory.read]
  rw [if_neg (by omega), if_neg (by omega)]

/-- A fetch that touches an address past the end raises for the first such address. -/
theorem fetch_past (s : State) (h : Config.memSize ≤ s.pc.toNat + 1) :
    fetch s = .error (.outOfBounds (max s.pc.toNat Config.memSize) .fetch) := by
  simp only [fetch, Memory.read]
  by_cases h1 : s.pc.toNat ≥ Config.memSize
  · rw [if_pos h1, Nat.max_eq_left h1]
  · rw [if_neg h1, if_pos h, Nat.max_eq_right (by omega), show s.pc.toNat + 1 = Config.memSize by omega]

theorem fetch_cases (s : State) :
    (s.pc.toNat + 1 < Config.memSize ∧
      fetch s = .ok (opcodeOf (s.mem.byte s.pc.toNat) (s.mem.byte (s.pc.toNat + 1)))) ∨
    (Config.memSize ≤ s.pc.toNat + 1 ∧
      fetch s = .error (.outOfBounds (max s.pc.toNat Config.memSize) .fetch)) := by
  by_cases h : s.pc.toNat + 1 < Config.memSize
  · exact .inl ⟨h, fetch_ok s h⟩
  · exact .inr ⟨by omega, fetch_past s (by omega)⟩

/-! ### Taking a fault -/

theorem record_outOfBounds (a : Nat) (access : Access) :
    (Raise.outOfBounds a access).record = outOfBoundsRecord a access := by
  have : BitVec.ofNat 16 (a % 65536) = BitVec.ofNat 16 a := BitVec.eq_of_toNat_eq (by simp)
  simp [Raise.record, outOfBoundsRecord, this]

/-- The address a record stands for is the one that was raised, up to 131071: `I + k` and `PC + k` are below that. -/
theorem outOfBoundsRecord_address (a : Nat) (access : Access) (h : a < 0x20000) :
    (outOfBoundsRecord a access).address = a := by
  simp only [outOfBoundsRecord, FaultRecord.address, BitVec.toNat_ofNat]
  by_cases h' : 65536 ≤ a <;> simp [h'] <;> omega

theorem outOfBoundsRecord_legal (a : Nat) (access : Access) (h : a < 0x20000) (ho : outsideWindow access a) :
    (outOfBoundsRecord a access).Legal := by
  show outsideWindow access (outOfBoundsRecord a access).address
  rwa [outOfBoundsRecord_address a access h]

/-! ### The memory instructions -/

@[simp] theorem State.effectiveAddress_eq (s : State) (k : Nat) : s.effectiveAddress k = s.i.toNat + k := rfl

/-- A store at `I`: the bytes are put and `PC` advances, or the fault is taken for one of its addresses. -/
theorem storeAtI_cases (bs : List Byte) (s : State) :
    (storeAtI bs s = .next { s with mem := s.mem.putBytes s.i.toNat bs }.advance ∧
      (bs ≠ [] → Config.progBase ≤ s.i.toNat ∧ s.i.toNat + bs.length ≤ Config.memSize)) ∨
    ∃ d, storeAtI bs s = .next (takeFault (.outOfBounds d .write) s) ∧ outsideWindow .write d ∧
      s.i.toNat ≤ d ∧ d < s.i.toNat + bs.length := by
  rcases Memory.writeBlock_cases s.mem s.i.toNat bs with ⟨h, hw⟩ | ⟨d, h, hd⟩
  · exact .inl ⟨by simp [storeAtI, h, completeOrFault], hw⟩
  · exact .inr ⟨d, by simp [storeAtI, h, completeOrFault], hd⟩

/-- A draw: the rows at `I` are blended and `PC` advances, or the fault is taken for one of its addresses. -/
theorem execDrwVxVyN_cases (x y : RegIx) (n : BitVec 4) (s : State) :
    (execDrwVxVyN x y n s =
        .next (drawRows x y ((List.range' s.i.toNat n.toNat).map s.mem.byte) s).advance ∧
      (n.toNat ≠ 0 → s.i.toNat + n.toNat ≤ Config.memSize)) ∨
    ∃ d, execDrwVxVyN x y n s = .next (takeFault (.outOfBounds d .read) s) ∧ outsideWindow .read d ∧
      s.i.toNat ≤ d ∧ d < s.i.toNat + n.toNat := by
  rcases Memory.readBlock_cases s.mem s.i.toNat n.toNat with ⟨h, hw⟩ | ⟨d, h, hd⟩
  · exact .inl ⟨by simp [execDrwVxVyN, h, completeOrFault], hw⟩
  · exact .inr ⟨d, by simp [execDrwVxVyN, h, completeOrFault], hd⟩

/-- A block load: the registers take the bytes at `I` and `PC` advances, or the fault is taken. -/
theorem execLdVxIndI_cases (x : RegIx) (s : State) :
    (execLdVxIndI x s =
        .next (s.setRegsFrom 0 ((List.range' s.i.toNat (x.toNat + 1)).map s.mem.byte)).advance ∧
      s.i.toNat + (x.toNat + 1) ≤ Config.memSize) ∨
    ∃ d, execLdVxIndI x s = .next (takeFault (.outOfBounds d .read) s) ∧ outsideWindow .read d ∧
      s.i.toNat ≤ d ∧ d < s.i.toNat + (x.toNat + 1) := by
  rcases Memory.readBlock_cases s.mem s.i.toNat (x.toNat + 1) with ⟨h, hw⟩ | ⟨d, h, hd⟩
  · exact .inl ⟨by simp [execLdVxIndI, h, completeOrFault], hw (by omega)⟩
  · exact .inr ⟨d, by simp [execLdVxIndI, h, completeOrFault], hd⟩

/-- The registers `V[0]` to `V[x]` as a list. -/
theorem State.regsUpTo_length (s : State) (x : RegIx) : (s.regsUpTo x).length = x.toNat + 1 := by
  have := x.isLt
  simp [State.regsUpTo]
  omega

theorem State.regsUpTo_getD (s : State) (x k : RegIx) (h : k.toNat ≤ x.toNat) :
    (s.regsUpTo x).getD k.toNat 0 = s.reg k := by
  have hx := x.isLt
  have hk := k.isLt
  rw [List.getD_eq_getElem _ _ (by rw [State.regsUpTo_length]; omega)]
  simp [State.regsUpTo, State.reg]

end Sys2Proof.Machine
end

