-- ==== Sys2Proof/Laws/Exec.lean ====
section
/-! SUPPORT. What one instruction can do, said once, and what one step can do, said once; invariants are derived from
these and do not unfold the instructions again. -/

namespace Sys2Proof.Machine

/-- What an instruction does to memory when it completes: nothing, or bytes put at `I` inside the program region. -/
def MemEffect (s t : State) : Prop :=
  t.mem = s.mem ∨ ∃ bs, t.mem = s.mem.putBytes s.i.toNat bs ∧
    (bs ≠ [] → Config.progBase ≤ s.i.toNat ∧ s.i.toNat + bs.length ≤ Config.memSize)

/-- What an instruction does to `PC` and the call stack when it completes: the next instruction, a skip, a jump to an
address up to 0x10FE, a call, or a return. -/
def FlowEffect (s t : State) : Prop :=
  (t.sp = s.sp ∧ t.stack = s.stack ∧ (t.pc = s.pc + 2 ∨ t.pc = s.pc + 4 ∨ t.pc.toNat ≤ 0x10FE)) ∨
  (t.sp = (s.push s.pc).sp ∧ t.stack = (s.push s.pc).stack ∧ t.pc.toNat ≤ 0xFFF) ∨
  (t.sp = s.pop.sp ∧ t.stack = s.stack ∧ t.pc = s.popValue + 2)

/-- An instruction that goes to the next one. -/
theorem FlowEffect.advance {s t : State} (h1 : t.sp = s.sp) (h2 : t.stack = s.stack) (h3 : t.pc = s.pc + 2) :
    FlowEffect s t := .inl ⟨h1, h2, .inl h3⟩

/-- An instruction that may skip the next one. -/
theorem FlowEffect.skip {s t : State} (c : Bool) (h1 : t.sp = s.sp) (h2 : t.stack = s.stack)
    (h3 : t.pc = if c then s.pc + 4 else s.pc + 2) : FlowEffect s t := by
  cases c
  · exact .inl ⟨h1, h2, .inl h3⟩
  · exact .inl ⟨h1, h2, .inr (.inl h3)⟩

theorem addrImm_toNat (nnn : BitVec 12) : (addrImm nnn).toNat = nnn.toNat := by
  have := nnn.isLt
  simp only [addrImm, BitVec.zeroExtend, BitVec.toNat_setWidth]
  omega

/-- The three ends of an instruction: it completes in the same mode; it starts the key wait; or it takes an OutOfBounds
fault, which changes only the mode. -/
inductive ExecEnd (i : Instr) (s t : State) : Prop where
  | completes (mode : t.mode = s.mode) (mem : MemEffect s t) (flow : FlowEffect s t)
  | waits (x : RegIx) (isWait : i = .ldVxK x) (isWaiting : t = { (eventAnswer s).2 with mode := .awaitingKey x })
  | faults (d : Nat) (access : Access) (took : t = takeFault (.outOfBounds d access) s)
      (outside : outsideWindow access d) (bound : d < 0x20000)

/-- A store at `I`, said as an end. -/
theorem execEnd_storeAtI {i : Instr} {bs : List Byte} {s t : State} (hlen : bs.length ≤ 16)
    (h : storeAtI bs s = .next t) : ExecEnd i s t := by
  have := s.i.isLt
  rcases storeAtI_cases bs s with ⟨e, hw⟩ | ⟨d, e, ho, _, hd⟩
  · rw [e] at h
    cases h
    exact .completes rfl (.inr ⟨bs, rfl, hw⟩) (.advance rfl rfl rfl)
  · rw [e] at h
    cases h
    exact .faults d .write rfl ho (by omega)

/-- Every instruction answers a next state, and it is one of the three ends. -/
theorem exec_cases (i : Instr) (s : State) : ∃ t, exec i s = .next t ∧ ExecEnd i s t := by
  have hi := s.i.isLt
  cases i with
  | ldBVx x =>
    rcases storeAtI_cases (bcdDigits (s.reg x)) s with ⟨e, _⟩ | ⟨d, e, _⟩ <;>
      exact ⟨_, e, execEnd_storeAtI (by simp [bcdDigits]) e⟩
  | ldIndIVx x =>
    have hx := x.isLt
    rcases storeAtI_cases (s.regsUpTo x) s with ⟨e, _⟩ | ⟨d, e, _⟩ <;>
      exact ⟨_, e, execEnd_storeAtI (by rw [State.regsUpTo_length]; omega) e⟩
  | ldVxIndI x =>
    have hx := x.isLt
    rcases execLdVxIndI_cases x s with ⟨e, _⟩ | ⟨d, e, ho, _, hd⟩
    · exact ⟨_, e, .completes (by simp) (.inl (by simp)) (.advance (by simp) (by simp) (by simp))⟩
    · exact ⟨_, e, .faults d .read rfl ho (by omega)⟩
  | drwVxVyN x y n =>
    have hn := n.isLt
    rcases execDrwVxVyN_cases x y n s with ⟨e, _⟩ | ⟨d, e, ho, _, hd⟩
    · exact ⟨_, e, .completes rfl (.inl rfl) (.advance rfl rfl rfl)⟩
    · exact ⟨_, e, .faults d .read rfl ho (by omega)⟩
  | ldVxK x =>
    refine ⟨_, rfl, ?_⟩
    cases (eventAnswer s).1 with
    | none => exact .waits x rfl rfl
    | some k => exact .completes rfl (.inl rfl) (.advance rfl rfl rfl)
  | jpNnn nnn =>
    exact ⟨_, rfl, .completes rfl (.inl rfl) (.inl ⟨rfl, rfl, .inr (.inr (by
      have := nnn.isLt; simp only [State.jump_pc, addrImm_toNat]; omega))⟩)⟩
  | jpV0Nnn nnn =>
    exact ⟨_, rfl, .completes rfl (.inl rfl) (.inl ⟨rfl, rfl, .inr (.inr (by
      have := nnn.isLt
      have := (s.reg 0).isLt
      simp only [State.jump_pc, BitVec.toNat_add, addrImm_toNat, BitVec.zeroExtend, BitVec.toNat_setWidth]
      omega))⟩)⟩
  | callNnn nnn =>
    exact ⟨_, rfl, .completes rfl (.inl rfl) (.inr (.inl ⟨rfl, rfl, by
      have := nnn.isLt; simp only [State.jump_pc, addrImm_toNat]; omega⟩))⟩
  | ret => exact ⟨_, rfl, .completes rfl (.inl rfl) (.inr (.inr ⟨rfl, rfl, rfl⟩))⟩
  | seVxKk x kk => exact ⟨_, rfl, .completes rfl (.inl rfl) (.skip _ rfl rfl rfl)⟩
  | sneVxKk x kk => exact ⟨_, rfl, .completes rfl (.inl rfl) (.skip _ rfl rfl rfl)⟩
  | seVxVy x y => exact ⟨_, rfl, .completes rfl (.inl rfl) (.skip _ rfl rfl rfl)⟩
  | sneVxVy x y => exact ⟨_, rfl, .completes rfl (.inl rfl) (.skip _ rfl rfl rfl)⟩
  | skpVx x => exact ⟨_, rfl, .completes rfl (.inl rfl) (.skip _ rfl rfl rfl)⟩
  | sknpVx x => exact ⟨_, rfl, .completes rfl (.inl rfl) (.skip _ rfl rfl rfl)⟩
  | cls => exact ⟨_, rfl, .completes rfl (.inl rfl) (.advance rfl rfl rfl)⟩
  | ldVxKk x kk => exact ⟨_, rfl, .completes rfl (.inl rfl) (.advance rfl rfl rfl)⟩
  | addVxKk x kk => exact ⟨_, rfl, .completes rfl (.inl rfl) (.advance rfl rfl rfl)⟩
  | ldVxVy x y => exact ⟨_, rfl, .completes rfl (.inl rfl) (.advance rfl rfl rfl)⟩
  | orVxVy x y => exact ⟨_, rfl, .completes rfl (.inl rfl) (.advance rfl rfl rfl)⟩
  | andVxVy x y => exact ⟨_, rfl, .completes rfl (.inl rfl) (.advance rfl rfl rfl)⟩
  | xorVxVy x y => exact ⟨_, rfl, .completes rfl (.inl rfl) (.advance rfl rfl rfl)⟩
  | addVxVy x y => exact ⟨_, rfl, .completes rfl (.inl rfl) (.advance rfl rfl rfl)⟩
  | subVxVy x y => exact ⟨_, rfl, .completes rfl (.inl rfl) (.advance rfl rfl rfl)⟩
  | shrVx x y => exact ⟨_, rfl, .completes rfl (.inl rfl) (.advance rfl rfl rfl)⟩
  | subnVxVy x y => exact ⟨_, rfl, .completes rfl (.inl rfl) (.advance rfl rfl rfl)⟩
  | shlVx x y => exact ⟨_, rfl, .completes rfl (.inl rfl) (.advance rfl rfl rfl)⟩
  | ldINnn nnn => exact ⟨_, rfl, .completes rfl (.inl rfl) (.advance rfl rfl rfl)⟩
  | rndVxKk x kk => exact ⟨_, rfl, .completes rfl (.inl rfl) (.advance rfl rfl rfl)⟩
  | ldVxDt x => exact ⟨_, rfl, .completes rfl (.inl rfl) (.advance rfl rfl rfl)⟩
  | ldDtVx x => exact ⟨_, rfl, .completes rfl (.inl rfl) (.advance rfl rfl rfl)⟩
  | ldStVx x => exact ⟨_, rfl, .completes rfl (.inl rfl) (.advance rfl rfl rfl)⟩
  | addIVx x => exact ⟨_, rfl, .completes rfl (.inl rfl) (.advance rfl rfl rfl)⟩
  | ldFVx x => exact ⟨_, rfl, .completes rfl (.inl rfl) (.advance rfl rfl rfl)⟩

/-- What one Execution Unit step can do. -/
inductive UnitEnd (s t : State) : Prop where
  | idle (r : FaultRecord) (mode : s.mode = .faulted r) (same : t = s)
  | polls (x : RegIx) (mode : s.mode = .awaitingKey x) (polled : t = pollAwaitedKey x s)
  | fetchFaults (mode : s.mode = .running) (past : Config.memSize ≤ s.pc.toNat + 1)
      (took : t = takeFault (.outOfBounds (max s.pc.toNat Config.memSize) .fetch) s)
  | unknown (op : Word) (mode : s.mode = .running) (inside : s.pc.toNat + 1 < Config.memSize)
      (isUnknown : dispatch op = none) (took : t = takeFault (.unknownOpcode op) s)
  | executes (i : Instr) (mode : s.mode = .running) (inside : s.pc.toNat + 1 < Config.memSize)
      (fetched : dispatch (opcodeOf (s.mem.byte s.pc.toNat) (s.mem.byte (s.pc.toNat + 1))) = some i)
      (executed : exec i s = .next t)

theorem unitStep_cases (s : State) : ∃ t, unitStep s = .next t ∧ UnitEnd s t := by
  cases hm : s.mode with
  | faulted r => exact ⟨s, by simp only [unitStep, hm], .idle r hm rfl⟩
  | awaitingKey x => exact ⟨_, by simp only [unitStep, hm], .polls x hm rfl⟩
  | running =>
    rcases fetch_cases s with ⟨hin, hf⟩ | ⟨hpast, hf⟩
    · cases hd : dispatch (opcodeOf (s.mem.byte s.pc.toNat) (s.mem.byte (s.pc.toNat + 1))) with
      | none => exact ⟨_, by simp only [unitStep, hm, hf, runOpcode, hd], .unknown _ hm hin hd rfl⟩
      | some i =>
        obtain ⟨t, ht, -⟩ := exec_cases i s
        exact ⟨t, by simp only [unitStep, hm, hf, runOpcode, hd, ht], .executes i hm hin hd ht⟩
    · exact ⟨_, by simp only [unitStep, hm, hf], .fetchFaults hm hpast rfl⟩

/-- What one step can do: the ticks before it, then one of the ends of an Execution Unit step. -/
theorem unitEnd_of_step {s t : State} (h : step s = .next t) : UnitEnd (ticksBeforeStep s) t := by
  obtain ⟨u, hu, he⟩ := unitStep_cases (ticksBeforeStep s)
  have : Host.Outcome.next u = .next t := hu.symm.trans h
  cases this
  exact he

end Sys2Proof.Machine
end

