-- ==== Sys2Proof/Laws/PerInstr.lean ====
section
/-! SUPPORT. The families of statements made per instruction: dispatch undoes encode; an encoding has the pattern of
its opcode-table row. -/

namespace Sys2Proof.Laws

/-- The opcode an instruction encodes to dispatches to that instruction, on a machine that has it. -/
def DispatchEncode.Statement (i : Instr) : Prop :=
  ∀ hasCls, i.wellFormedWith hasCls = true → dispatchWith hasCls (encode i) = some i

/-- An instruction's encoding has the pattern of its row of the opcode table (30_encoding.md R66). -/
def RowPattern.Statement (i : Instr) : Prop :=
  ∃ r ∈ opcodeTable, r.number = i.rowNumber ∧ r.matches (encode i) = true

theorem DispatchEncode.cls : DispatchEncode.Statement (.cls) := by
  intro hasCls h; cases hasCls
  · exact absurd h (by decide)
  · rfl

theorem DispatchEncode.ret : DispatchEncode.Statement (.ret) := by
  intro hasCls _; cases hasCls <;> rfl

theorem DispatchEncode.jpNnn (nnn : BitVec 12) : DispatchEncode.Statement (.jpNnn nnn) := by
  intro _ _; simp [dispatchWith, encode, fieldsOf_encNNN]

theorem DispatchEncode.callNnn (nnn : BitVec 12) : DispatchEncode.Statement (.callNnn nnn) := by
  intro _ _; simp [dispatchWith, encode, fieldsOf_encNNN]

theorem DispatchEncode.seVxKk (x : RegIx) (kk : Byte) : DispatchEncode.Statement (.seVxKk x kk) := by
  intro _ _; simp [dispatchWith, encode, fieldsOf_encXKK]

theorem DispatchEncode.sneVxKk (x : RegIx) (kk : Byte) : DispatchEncode.Statement (.sneVxKk x kk) := by
  intro _ _; simp [dispatchWith, encode, fieldsOf_encXKK]

theorem DispatchEncode.seVxVy (x y : RegIx) : DispatchEncode.Statement (.seVxVy x y) := by
  intro _ _; simp [dispatchWith, encode, fieldsOf_encXYN]

theorem DispatchEncode.ldVxKk (x : RegIx) (kk : Byte) : DispatchEncode.Statement (.ldVxKk x kk) := by
  intro _ _; simp [dispatchWith, encode, fieldsOf_encXKK]

theorem DispatchEncode.addVxKk (x : RegIx) (kk : Byte) : DispatchEncode.Statement (.addVxKk x kk) := by
  intro _ _; simp [dispatchWith, encode, fieldsOf_encXKK]

theorem DispatchEncode.ldVxVy (x y : RegIx) : DispatchEncode.Statement (.ldVxVy x y) := by
  intro _ _; simp [dispatchWith, encode, fieldsOf_encXYN, dispatch8]

theorem DispatchEncode.orVxVy (x y : RegIx) : DispatchEncode.Statement (.orVxVy x y) := by
  intro _ _; simp [dispatchWith, encode, fieldsOf_encXYN, dispatch8]

theorem DispatchEncode.andVxVy (x y : RegIx) : DispatchEncode.Statement (.andVxVy x y) := by
  intro _ _; simp [dispatchWith, encode, fieldsOf_encXYN, dispatch8]

theorem DispatchEncode.xorVxVy (x y : RegIx) : DispatchEncode.Statement (.xorVxVy x y) := by
  intro _ _; simp [dispatchWith, encode, fieldsOf_encXYN, dispatch8]

theorem DispatchEncode.addVxVy (x y : RegIx) : DispatchEncode.Statement (.addVxVy x y) := by
  intro _ _; simp [dispatchWith, encode, fieldsOf_encXYN, dispatch8]

theorem DispatchEncode.subVxVy (x y : RegIx) : DispatchEncode.Statement (.subVxVy x y) := by
  intro _ _; simp [dispatchWith, encode, fieldsOf_encXYN, dispatch8]

theorem DispatchEncode.shrVx (x y : RegIx) : DispatchEncode.Statement (.shrVx x y) := by
  intro _ _; simp [dispatchWith, encode, fieldsOf_encXYN, dispatch8]

theorem DispatchEncode.subnVxVy (x y : RegIx) : DispatchEncode.Statement (.subnVxVy x y) := by
  intro _ _; simp [dispatchWith, encode, fieldsOf_encXYN, dispatch8]

theorem DispatchEncode.shlVx (x y : RegIx) : DispatchEncode.Statement (.shlVx x y) := by
  intro _ _; simp [dispatchWith, encode, fieldsOf_encXYN, dispatch8]

theorem DispatchEncode.sneVxVy (x y : RegIx) : DispatchEncode.Statement (.sneVxVy x y) := by
  intro _ _; simp [dispatchWith, encode, fieldsOf_encXYN]

theorem DispatchEncode.ldINnn (nnn : BitVec 12) : DispatchEncode.Statement (.ldINnn nnn) := by
  intro _ _; simp [dispatchWith, encode, fieldsOf_encNNN]

theorem DispatchEncode.jpV0Nnn (nnn : BitVec 12) : DispatchEncode.Statement (.jpV0Nnn nnn) := by
  intro _ _; simp [dispatchWith, encode, fieldsOf_encNNN]

theorem DispatchEncode.rndVxKk (x : RegIx) (kk : Byte) : DispatchEncode.Statement (.rndVxKk x kk) := by
  intro _ _; simp [dispatchWith, encode, fieldsOf_encXKK]

theorem DispatchEncode.drwVxVyN (x y : RegIx) (n : BitVec 4) : DispatchEncode.Statement (.drwVxVyN x y n) := by
  intro _ _; simp [dispatchWith, encode, fieldsOf_encXYN]

theorem DispatchEncode.skpVx (x : RegIx) : DispatchEncode.Statement (.skpVx x) := by
  intro _ _; simp [dispatchWith, encode, fieldsOf_encXKK, dispatchE]

theorem DispatchEncode.sknpVx (x : RegIx) : DispatchEncode.Statement (.sknpVx x) := by
  intro _ _; simp [dispatchWith, encode, fieldsOf_encXKK, dispatchE]

theorem DispatchEncode.ldVxDt (x : RegIx) : DispatchEncode.Statement (.ldVxDt x) := by
  intro _ _; simp [dispatchWith, encode, fieldsOf_encXKK, dispatchF]

theorem DispatchEncode.ldVxK (x : RegIx) : DispatchEncode.Statement (.ldVxK x) := by
  intro _ _; simp [dispatchWith, encode, fieldsOf_encXKK, dispatchF]

theorem DispatchEncode.ldDtVx (x : RegIx) : DispatchEncode.Statement (.ldDtVx x) := by
  intro _ _; simp [dispatchWith, encode, fieldsOf_encXKK, dispatchF]

theorem DispatchEncode.ldStVx (x : RegIx) : DispatchEncode.Statement (.ldStVx x) := by
  intro _ _; simp [dispatchWith, encode, fieldsOf_encXKK, dispatchF]

theorem DispatchEncode.addIVx (x : RegIx) : DispatchEncode.Statement (.addIVx x) := by
  intro _ _; simp [dispatchWith, encode, fieldsOf_encXKK, dispatchF]

theorem DispatchEncode.ldFVx (x : RegIx) : DispatchEncode.Statement (.ldFVx x) := by
  intro _ _; simp [dispatchWith, encode, fieldsOf_encXKK, dispatchF]

theorem DispatchEncode.ldBVx (x : RegIx) : DispatchEncode.Statement (.ldBVx x) := by
  intro _ _; simp [dispatchWith, encode, fieldsOf_encXKK, dispatchF]

theorem DispatchEncode.ldIndIVx (x : RegIx) : DispatchEncode.Statement (.ldIndIVx x) := by
  intro _ _; simp [dispatchWith, encode, fieldsOf_encXKK, dispatchF]

theorem DispatchEncode.ldVxIndI (x : RegIx) : DispatchEncode.Statement (.ldVxIndI x) := by
  intro _ _; simp [dispatchWith, encode, fieldsOf_encXKK, dispatchF]

theorem RowPattern.cls : RowPattern.Statement (.cls) :=
  ⟨⟨1, 0x00E0, 0xFFFF⟩, by decide, rfl, rfl⟩

theorem RowPattern.ret : RowPattern.Statement (.ret) :=
  ⟨⟨2, 0x00EE, 0xFFFF⟩, by decide, rfl, rfl⟩

theorem RowPattern.jpNnn (nnn : BitVec 12) : RowPattern.Statement (.jpNnn nnn) :=
  ⟨⟨3, 0x1000, 0xF000⟩, by decide, rfl, by simp [OpcodeRow.matches, encode, encNNN_and]⟩

theorem RowPattern.callNnn (nnn : BitVec 12) : RowPattern.Statement (.callNnn nnn) :=
  ⟨⟨4, 0x2000, 0xF000⟩, by decide, rfl, by simp [OpcodeRow.matches, encode, encNNN_and]⟩

theorem RowPattern.seVxKk (x : RegIx) (kk : Byte) : RowPattern.Statement (.seVxKk x kk) :=
  ⟨⟨5, 0x3000, 0xF000⟩, by decide, rfl, by simp [OpcodeRow.matches, encode, encXKK_and_class]⟩

theorem RowPattern.sneVxKk (x : RegIx) (kk : Byte) : RowPattern.Statement (.sneVxKk x kk) :=
  ⟨⟨6, 0x4000, 0xF000⟩, by decide, rfl, by simp [OpcodeRow.matches, encode, encXKK_and_class]⟩

theorem RowPattern.seVxVy (x y : RegIx) : RowPattern.Statement (.seVxVy x y) :=
  ⟨⟨7, 0x5000, 0xF00F⟩, by decide, rfl, by simp [OpcodeRow.matches, encode, encXYN_and_nibble]⟩

theorem RowPattern.ldVxKk (x : RegIx) (kk : Byte) : RowPattern.Statement (.ldVxKk x kk) :=
  ⟨⟨8, 0x6000, 0xF000⟩, by decide, rfl, by simp [OpcodeRow.matches, encode, encXKK_and_class]⟩

theorem RowPattern.addVxKk (x : RegIx) (kk : Byte) : RowPattern.Statement (.addVxKk x kk) :=
  ⟨⟨9, 0x7000, 0xF000⟩, by decide, rfl, by simp [OpcodeRow.matches, encode, encXKK_and_class]⟩

theorem RowPattern.ldVxVy (x y : RegIx) : RowPattern.Statement (.ldVxVy x y) :=
  ⟨⟨10, 0x8000, 0xF00F⟩, by decide, rfl, by simp [OpcodeRow.matches, encode, encXYN_and_nibble]⟩

theorem RowPattern.orVxVy (x y : RegIx) : RowPattern.Statement (.orVxVy x y) :=
  ⟨⟨11, 0x8001, 0xF00F⟩, by decide, rfl, by simp [OpcodeRow.matches, encode, encXYN_and_nibble]⟩

theorem RowPattern.andVxVy (x y : RegIx) : RowPattern.Statement (.andVxVy x y) :=
  ⟨⟨12, 0x8002, 0xF00F⟩, by decide, rfl, by simp [OpcodeRow.matches, encode, encXYN_and_nibble]⟩

theorem RowPattern.xorVxVy (x y : RegIx) : RowPattern.Statement (.xorVxVy x y) :=
  ⟨⟨13, 0x8003, 0xF00F⟩, by decide, rfl, by simp [OpcodeRow.matches, encode, encXYN_and_nibble]⟩

theorem RowPattern.addVxVy (x y : RegIx) : RowPattern.Statement (.addVxVy x y) :=
  ⟨⟨14, 0x8004, 0xF00F⟩, by decide, rfl, by simp [OpcodeRow.matches, encode, encXYN_and_nibble]⟩

theorem RowPattern.subVxVy (x y : RegIx) : RowPattern.Statement (.subVxVy x y) :=
  ⟨⟨15, 0x8005, 0xF00F⟩, by decide, rfl, by simp [OpcodeRow.matches, encode, encXYN_and_nibble]⟩

theorem RowPattern.shrVx (x y : RegIx) : RowPattern.Statement (.shrVx x y) :=
  ⟨⟨16, 0x8006, 0xF00F⟩, by decide, rfl, by simp [OpcodeRow.matches, encode, encXYN_and_nibble]⟩

theorem RowPattern.subnVxVy (x y : RegIx) : RowPattern.Statement (.subnVxVy x y) :=
  ⟨⟨17, 0x8007, 0xF00F⟩, by decide, rfl, by simp [OpcodeRow.matches, encode, encXYN_and_nibble]⟩

theorem RowPattern.shlVx (x y : RegIx) : RowPattern.Statement (.shlVx x y) :=
  ⟨⟨18, 0x800E, 0xF00F⟩, by decide, rfl, by simp [OpcodeRow.matches, encode, encXYN_and_nibble]⟩

theorem RowPattern.sneVxVy (x y : RegIx) : RowPattern.Statement (.sneVxVy x y) :=
  ⟨⟨19, 0x9000, 0xF00F⟩, by decide, rfl, by simp [OpcodeRow.matches, encode, encXYN_and_nibble]⟩

theorem RowPattern.ldINnn (nnn : BitVec 12) : RowPattern.Statement (.ldINnn nnn) :=
  ⟨⟨20, 0xA000, 0xF000⟩, by decide, rfl, by simp [OpcodeRow.matches, encode, encNNN_and]⟩

theorem RowPattern.jpV0Nnn (nnn : BitVec 12) : RowPattern.Statement (.jpV0Nnn nnn) :=
  ⟨⟨21, 0xB000, 0xF000⟩, by decide, rfl, by simp [OpcodeRow.matches, encode, encNNN_and]⟩

theorem RowPattern.rndVxKk (x : RegIx) (kk : Byte) : RowPattern.Statement (.rndVxKk x kk) :=
  ⟨⟨22, 0xC000, 0xF000⟩, by decide, rfl, by simp [OpcodeRow.matches, encode, encXKK_and_class]⟩

theorem RowPattern.drwVxVyN (x y : RegIx) (n : BitVec 4) : RowPattern.Statement (.drwVxVyN x y n) :=
  ⟨⟨23, 0xD000, 0xF000⟩, by decide, rfl, by simp [OpcodeRow.matches, encode, encXYN_and_class]⟩

theorem RowPattern.skpVx (x : RegIx) : RowPattern.Statement (.skpVx x) :=
  ⟨⟨24, 0xE09E, 0xF0FF⟩, by decide, rfl, by simp [OpcodeRow.matches, encode, encXKK_and_byte]⟩

theorem RowPattern.sknpVx (x : RegIx) : RowPattern.Statement (.sknpVx x) :=
  ⟨⟨25, 0xE0A1, 0xF0FF⟩, by decide, rfl, by simp [OpcodeRow.matches, encode, encXKK_and_byte]⟩

theorem RowPattern.ldVxDt (x : RegIx) : RowPattern.Statement (.ldVxDt x) :=
  ⟨⟨26, 0xF007, 0xF0FF⟩, by decide, rfl, by simp [OpcodeRow.matches, encode, encXKK_and_byte]⟩

theorem RowPattern.ldVxK (x : RegIx) : RowPattern.Statement (.ldVxK x) :=
  ⟨⟨27, 0xF00A, 0xF0FF⟩, by decide, rfl, by simp [OpcodeRow.matches, encode, encXKK_and_byte]⟩

theorem RowPattern.ldDtVx (x : RegIx) : RowPattern.Statement (.ldDtVx x) :=
  ⟨⟨28, 0xF015, 0xF0FF⟩, by decide, rfl, by simp [OpcodeRow.matches, encode, encXKK_and_byte]⟩

theorem RowPattern.ldStVx (x : RegIx) : RowPattern.Statement (.ldStVx x) :=
  ⟨⟨29, 0xF018, 0xF0FF⟩, by decide, rfl, by simp [OpcodeRow.matches, encode, encXKK_and_byte]⟩

theorem RowPattern.addIVx (x : RegIx) : RowPattern.Statement (.addIVx x) :=
  ⟨⟨30, 0xF01E, 0xF0FF⟩, by decide, rfl, by simp [OpcodeRow.matches, encode, encXKK_and_byte]⟩

theorem RowPattern.ldFVx (x : RegIx) : RowPattern.Statement (.ldFVx x) :=
  ⟨⟨31, 0xF029, 0xF0FF⟩, by decide, rfl, by simp [OpcodeRow.matches, encode, encXKK_and_byte]⟩

theorem RowPattern.ldBVx (x : RegIx) : RowPattern.Statement (.ldBVx x) :=
  ⟨⟨32, 0xF033, 0xF0FF⟩, by decide, rfl, by simp [OpcodeRow.matches, encode, encXKK_and_byte]⟩

theorem RowPattern.ldIndIVx (x : RegIx) : RowPattern.Statement (.ldIndIVx x) :=
  ⟨⟨33, 0xF055, 0xF0FF⟩, by decide, rfl, by simp [OpcodeRow.matches, encode, encXKK_and_byte]⟩

theorem RowPattern.ldVxIndI (x : RegIx) : RowPattern.Statement (.ldVxIndI x) :=
  ⟨⟨34, 0xF065, 0xF0FF⟩, by decide, rfl, by simp [OpcodeRow.matches, encode, encXKK_and_byte]⟩

end Sys2Proof.Laws
end

