-- ==== Sys2Proof/Tests/Slice0.lean ====
section
/-! SUPPORT. Small tests, each about one instruction, with the expected results of the spec's own vectors
(95_test_vectors.md, numbers in the comments), and a witness for the hypotheses of every obligation. -/

namespace Sys2Proof.Machine.Tests

open Sys2Proof

/-! ## WellFormed: the one check, and what it refuses -/

theorem test_wellFormed_refuses_cls_without_hasCls : Instr.wellFormedWith false .cls = false := rfl

theorem test_wellFormed_admits_cls_with_hasCls : Instr.wellFormedWith true .cls = true := rfl

theorem test_wellFormed_admits_ret_without_hasCls : Instr.wellFormedWith false .ret = true := rfl

/-! ## Decoding: a word of every constructor, written out from the patterns of 30_encoding.md R66 -/

theorem test_decode_cls : decode [0x00, 0xE0] = .ok (.cls, []) := rfl
theorem test_decode_ret : decode [0x00, 0xEE] = .ok (.ret, []) := rfl
theorem test_decode_jpNnn : decode [0x12, 0x34] = .ok (.jpNnn 0x234, []) := rfl
theorem test_decode_callNnn : decode [0x2A, 0xBC] = .ok (.callNnn 0xABC, []) := rfl
theorem test_decode_seVxKk : decode [0x33, 0x2A] = .ok (.seVxKk 3 0x2A, []) := rfl
theorem test_decode_sneVxKk : decode [0x4C, 0xF1] = .ok (.sneVxKk 12 0xF1, []) := rfl
theorem test_decode_seVxVy : decode [0x51, 0x20] = .ok (.seVxVy 1 2, []) := rfl
theorem test_decode_ldVxKk : decode [0x6A, 0x3C] = .ok (.ldVxKk 10 0x3C, []) := rfl
theorem test_decode_addVxKk : decode [0x71, 0xFF] = .ok (.addVxKk 1 0xFF, []) := rfl
theorem test_decode_ldVxVy : decode [0x81, 0x20] = .ok (.ldVxVy 1 2, []) := rfl
theorem test_decode_orVxVy : decode [0x8E, 0x31] = .ok (.orVxVy 14 3, []) := rfl
theorem test_decode_andVxVy : decode [0x84, 0x52] = .ok (.andVxVy 4 5, []) := rfl
theorem test_decode_xorVxVy : decode [0x86, 0x73] = .ok (.xorVxVy 6 7, []) := rfl
theorem test_decode_addVxVy : decode [0x8A, 0xB4] = .ok (.addVxVy 10 11, []) := rfl
theorem test_decode_subVxVy : decode [0x81, 0x25] = .ok (.subVxVy 1 2, []) := rfl
theorem test_decode_shrVx : decode [0x81, 0xF6] = .ok (.shrVx 1 15, []) := rfl
theorem test_decode_subnVxVy : decode [0x83, 0x47] = .ok (.subnVxVy 3 4, []) := rfl
theorem test_decode_shlVx : decode [0x82, 0x0E] = .ok (.shlVx 2 0, []) := rfl
theorem test_decode_sneVxVy : decode [0x9A, 0xB0] = .ok (.sneVxVy 10 11, []) := rfl
theorem test_decode_ldINnn : decode [0xA2, 0xF0] = .ok (.ldINnn 0x2F0, []) := rfl
theorem test_decode_jpV0Nnn : decode [0xBF, 0xFF] = .ok (.jpV0Nnn 0xFFF, []) := rfl
theorem test_decode_rndVxKk : decode [0xC3, 0x0F] = .ok (.rndVxKk 3 0x0F, []) := rfl
theorem test_decode_drwVxVyN : decode [0xD1, 0x2F] = .ok (.drwVxVyN 1 2 15, []) := rfl
theorem test_decode_skpVx : decode [0xE2, 0x9E] = .ok (.skpVx 2, []) := rfl
theorem test_decode_sknpVx : decode [0xED, 0xA1] = .ok (.sknpVx 13, []) := rfl
theorem test_decode_ldVxDt : decode [0xF4, 0x07] = .ok (.ldVxDt 4, []) := rfl
theorem test_decode_ldVxK : decode [0xF1, 0x0A] = .ok (.ldVxK 1, []) := rfl
theorem test_decode_ldDtVx : decode [0xF5, 0x15] = .ok (.ldDtVx 5, []) := rfl
theorem test_decode_ldStVx : decode [0xF6, 0x18] = .ok (.ldStVx 6, []) := rfl
theorem test_decode_addIVx : decode [0xF2, 0x1E] = .ok (.addIVx 2, []) := rfl
theorem test_decode_ldFVx : decode [0xF0, 0x29] = .ok (.ldFVx 0, []) := rfl
theorem test_decode_ldBVx : decode [0xF1, 0x33] = .ok (.ldBVx 1, []) := rfl
theorem test_decode_ldIndIVx : decode [0xFF, 0x55] = .ok (.ldIndIVx 15, []) := rfl
theorem test_decode_ldVxIndI : decode [0xF1, 0x65] = .ok (.ldVxIndI 1, []) := rfl

/-- D-E3, D-E6, D-E7, D-E9, D-E11, D-E13, D-E14, and S10: opcodes that select no operation. -/
theorem test_decode_undefined :
    [0x0000, 0x01EE, 0x5121, 0x812F, 0xE19F, 0xF175, 0xFFFF, 0x8128].map dispatch = List.replicate 8 none := by
  decide

/-- One byte is no instruction, and bytes after an instruction are left. -/
theorem test_decode_truncated : decode [0x12] = .error .truncated := rfl

theorem test_decode_leaves_the_rest : decode [0x00, 0xEE, 0x12] = .ok (.ret, [0x12]) := rfl

theorem test_decodeTableWord : decodeTableWord 16 0xD12F = some (.drwVxVyN 1 2 15) := rfl

/-- The opcode 0x812F is undefined, so the host's word of it decodes to nothing. -/
theorem test_decodeTableWord_undefined : decodeTableWord 16 0x812F = none := rfl

/-! ## One step -/

/-- The reset state with no tick before the next two steps. -/
def start : State := { State.reset with ticks := ⟨[0, 0], 0⟩ }

/-- The state after one step that begins by fetching `op` at `PC`. -/
def ran (op : Nat) (s : State) : State :=
  match step (s.withFetchWord 16 op) with
  | .next t => t
  | .fault _ => s
  | .refused _ => s

/-- `start` with two registers written. -/
def regs2 (x : RegIx) (a : Byte) (y : RegIx) (b : Byte) : State := (start.setReg x a).setReg y b

/-- `start` with `I` given. -/
def atI (a : Word) : State := { start with i := a }

/-- `start` with `PC` given. -/
def atPc (a : Word) : State := { start with pc := a }

/-- D-CF1. -/
theorem test_jpNnn : (ran 0x1234 start).pc = 0x234 := by decide
/-- D-CF5: 0x10FE, neither masked nor checked. -/
theorem test_jpV0Nnn : (ran 0xBFFF (start.setReg 0 0xFF)).pc = 0x10FE := by decide
/-- D-CF10: the last entry, `SP` wraps. -/
theorem test_callNnn :
    let t := ran 0x2400 { start with sp := 15, pc := 0x300 }
    t.stack[15] = 0x300 ∧ t.sp = 0 ∧ t.pc = 0x400 := by decide
/-- D-CF7. -/
theorem test_ret :
    let t := ran 0x00EE { start with sp := 1, pc := 0x212, stack := start.stack.set 0 0x204 }
    t.sp = 0 ∧ t.pc = 0x206 ∧ t.stack[0] = 0x204 := by decide
/-- D-CF9: nothing to return to. -/
theorem test_ret_underflow : (ran 0x00EE start).sp = 15 ∧ (ran 0x00EE start).pc = 0x002 := by decide
/-- D-CF11, D-CF12. -/
theorem test_seVxKk : (ran 0x332A (start.setReg 3 0x2A)).pc = 0x204 ∧
    (ran 0x332A (start.setReg 3 0x2B)).pc = 0x202 := by decide
/-- D-CF13, D-CF14. -/
theorem test_sneVxKk : (ran 0x432A (start.setReg 3 0x2A)).pc = 0x202 ∧
    (ran 0x4300 (start.setReg 3 0x2A)).pc = 0x204 := by decide
/-- D-CF15, D-CF16 with `PC` at 0x200. -/
theorem test_seVxVy : (ran 0x5120 (regs2 1 7 2 7)).pc = 0x204 ∧ (ran 0x5120 (regs2 1 7 2 8)).pc = 0x202 := by
  decide
/-- D-CF18, D-CF19 with `PC` at 0x200. -/
theorem test_sneVxVy : (ran 0x9120 (regs2 1 7 2 8)).pc = 0x204 ∧ (ran 0x9120 (regs2 1 7 2 7)).pc = 0x202 := by
  decide

/-- D-A2: `VF` is an ordinary destination. -/
theorem test_ldVxKk : (ran 0x6F05 start).reg 15 = 5 ∧ (ran 0x6F05 start).pc = 0x202 := by decide
/-- D-A3. -/
theorem test_ldVxVy : (ran 0x8120 (start.setReg 2 0x55)).reg 1 = 0x55 := by decide
/-- D-A4: wraps, no flag. -/
theorem test_addVxKk : (ran 0x7102 (start.setReg 1 0xFF)).reg 1 = 1 ∧
    (ran 0x7102 (start.setReg 1 0xFF)).reg 15 = 0 := by decide
/-- D-A7: `VF` unchanged. -/
theorem test_orVxVy : (ran 0x8121 (regs2 1 0x0F 2 0xF0)).reg 1 = 0xFF ∧
    (ran 0x8121 ((regs2 1 0x0F 2 0xF0).setReg 15 1)).reg 15 = 1 := by decide
/-- D-A8. -/
theorem test_andVxVy : (ran 0x8122 (regs2 1 0x3C 2 0x0F)).reg 1 = 0x0C := by decide
/-- D-A9, D-A10. -/
theorem test_xorVxVy : (ran 0x8123 (regs2 1 0xFF 2 0x0F)).reg 1 = 0xF0 ∧
    (ran 0x8113 (start.setReg 1 0xA5)).reg 1 = 0 := by decide
/-- D-A12, D-A13. -/
theorem test_addVxVy : (ran 0x8124 (regs2 1 0x80 2 0x7F)).reg 15 = 0 ∧
    (ran 0x8124 (regs2 1 0xFF 2 0xFF)).reg 1 = 0xFE ∧ (ran 0x8124 (regs2 1 0xFF 2 0xFF)).reg 15 = 1 := by decide
/-- D-A15, D-A16: with `VF` as destination the result survives; as source its old value counts. -/
theorem test_addVxVy_flag_register : (ran 0x8F14 (regs2 15 0xFF 1 1)).reg 15 = 0 ∧
    (ran 0x80F4 (regs2 0 1 15 0xFF)).reg 0 = 0 ∧ (ran 0x80F4 (regs2 0 1 15 0xFF)).reg 15 = 1 := by decide
/-- D-A18, D-A19: equal operands leave the flag 0. -/
theorem test_subVxVy : (ran 0x8125 (regs2 1 3 2 5)).reg 1 = 0xFE ∧ (ran 0x8125 (regs2 1 3 2 5)).reg 15 = 0 ∧
    (ran 0x8125 (regs2 1 7 2 7)).reg 15 = 0 := by decide
/-- D-A17. -/
theorem test_subVxVy_no_borrow : (ran 0x8125 (regs2 1 5 2 3)).reg 1 = 2 ∧
    (ran 0x8125 (regs2 1 5 2 3)).reg 15 = 1 := by decide
/-- D-A22, D-A23. -/
theorem test_subnVxVy : (ran 0x8127 (regs2 1 3 2 5)).reg 1 = 2 ∧ (ran 0x8127 (regs2 1 3 2 5)).reg 15 = 1 ∧
    (ran 0x8127 (regs2 1 5 2 3)).reg 1 = 0xFE ∧ (ran 0x8127 (regs2 1 5 2 3)).reg 15 = 0 := by decide
/-- D-A28: `y` is ignored. -/
theorem test_shrVx : (ran 0x8126 (regs2 1 0xFF 2 0x10)).reg 1 = 0x7F ∧
    (ran 0x8126 (regs2 1 0xFF 2 0x10)).reg 15 = 1 ∧ (ran 0x8126 (regs2 1 0xFF 2 0x10)).reg 2 = 0x10 := by decide
/-- D-A30. -/
theorem test_shrVx_flag_register : (ran 0x8F06 (start.setReg 15 3)).reg 15 = 1 := by decide
/-- D-A31. -/
theorem test_shlVx : (ran 0x810E (start.setReg 1 0x81)).reg 1 = 2 ∧
    (ran 0x810E (start.setReg 1 0x81)).reg 15 = 1 := by decide
/-- D-A35. -/
theorem test_shlVx_flag_register : (ran 0x8F0E (start.setReg 15 0x81)).reg 15 = 2 := by decide

/-- D-I1, D-I2. -/
theorem test_ldINnn : (ran 0xA2F0 start).i = 0x2F0 ∧ (ran 0xA000 (atI 0x1234)).i = 0 := by decide
/-- D-I3. -/
theorem test_rndVxKk : (ran 0xC30F { start with rng := ⟨[0xB7], 0⟩ }).reg 3 = 0x07 := by decide
/-- D-I4: the source is called even when `kk` is 0. -/
theorem test_rndVxKk_mask_zero : (ran 0xC300 { start with rng := ⟨[0xB7], 0⟩ }).reg 3 = 0 ∧
    (ran 0xC300 { start with rng := ⟨[0xB7], 0⟩ }).rng = ⟨[], 1⟩ := by decide
/-- D-I9: the row wraps at the right edge. -/
theorem test_drwVxVyN_wraps :
    let t := ran 0xD121 { regs2 1 63 2 0 with i := 0x300, mem := [(0x300, 0xC0)] }
    pixel t.display 0 63 = true ∧ pixel t.display 0 0 = true ∧ pixel t.display 0 1 = false ∧ t.reg 15 = 0 := by
  decide
/-- D-I12: past the end of memory. -/
theorem test_drwVxVyN_faults :
    let t := ran 0xD123 { start.setReg 15 0x55 with i := 0xFFE }
    t.mode = .faulted ⟨.outOfBounds, 0x1000, false, .read⟩ ∧ t.reg 15 = 0x55 ∧ t.pc = 0x200 := by decide
/-- D-I14. -/
theorem test_cls :
    let t := ran 0x00E0 { start.setReg 15 7 with display := flipPixel clearedGrid 31 63 }
    t.display = clearedGrid ∧ t.reg 15 = 7 ∧ t.pc = 0x202 := by decide
/-- D-I15, D-I19 with `PC` at 0x200: key 5 held; the low 4 bits of 0x1A select key 10. -/
theorem test_skpVx : (ran 0xE29E { start.setReg 2 5 with levels := ⟨[0x0020], 0⟩ }).pc = 0x204 ∧
    (ran 0xE29E { start.setReg 2 0x1A with levels := ⟨[0x0400], 0⟩ }).pc = 0x204 := by decide
/-- D-I16 with `PC` at 0x200: all keys but key 5 held. -/
theorem test_skpVx_not_held : (ran 0xE29E { start.setReg 2 5 with levels := ⟨[0xFFDF], 0⟩ }).pc = 0x202 := by
  decide
/-- D-I17, D-I18 with `PC` at 0x200. -/
theorem test_sknpVx : (ran 0xE2A1 { start.setReg 2 5 with levels := ⟨[0xFFDF], 0⟩ }).pc = 0x204 ∧
    (ran 0xE2A1 { start.setReg 2 5 with levels := ⟨[0x0020], 0⟩ }).pc = 0x202 := by decide

/-- D-T1. -/
theorem test_ldVxDt : (ran 0xF407 { start with dt := 0x1E }).reg 4 = 0x1E ∧
    (ran 0xF407 { start with dt := 0x1E }).dt = 0x1E := by decide
/-- D-T2. -/
theorem test_ldDtVx : (ran 0xF415 (start.setReg 4 0x3C)).dt = 0x3C := by decide
/-- D-T3, D-T6. -/
theorem test_ldStVx : tone (ran 0xF418 (start.setReg 4 2)) = true ∧
    tone (ran 0xF418 { start with st := 5 }) = false := by decide
/-- D-T8, D-T10: no 12-bit mask, no flag; 16 bits wrap. -/
theorem test_addIVx : (ran 0xF21E { start.setReg 2 1 with i := 0xFFF }).i = 0x1000 ∧
    (ran 0xF21E { start.setReg 2 2 with i := 0xFFFF }).i = 1 := by decide
/-- D-T12, D-T13. -/
theorem test_ldFVx : (ran 0xF029 (start.setReg 0 0x0F)).i = 0x4B ∧
    (ran 0xF029 (start.setReg 0 0x1A)).i = 0x32 := by decide
/-- D-T14. -/
theorem test_ldBVx :
    (ran 0xF133 { start.setReg 1 0x9C with i := 0x300 }).mem = [(0x200, 0xF1), (0x201, 0x33)] ++
      [(0x300, 1), (0x301, 5), (0x302, 6)] := by decide
/-- D-T21: nothing is written, not even 0x200. -/
theorem test_ldBVx_faults :
    let t := ran 0xF133 { start.setReg 1 7 with i := 0x1FE, pc := 0x300 }
    t.mode = .faulted ⟨.outOfBounds, 0x1FE, false, .write⟩ ∧ t.mem = [(0x300, 0xF1), (0x301, 0x33)] := by decide
/-- D-T22. -/
theorem test_ldIndIVx :
    (ran 0xF255 { (regs2 0 0x11 1 0x22).setReg 2 0x33 with i := 0x400 }).mem =
      [(0x200, 0xF2), (0x201, 0x55)] ++ [(0x400, 0x11), (0x401, 0x22), (0x402, 0x33)] := by decide
/-- D-T25. -/
theorem test_ldIndIVx_faults :
    let t := ran 0xFF55 { start.setReg 0 1 with i := 0xFF1 }
    t.mode = .faulted ⟨.outOfBounds, 0x1000, false, .write⟩ ∧ t.mem.byte 0xFF1 = 0 := by decide
/-- D-T28: glyph 0 read from the reserved region; the next register stays. -/
theorem test_ldVxIndI :
    (ran 0xF465 (start.setReg 5 9)).v.toList.take 6 = [0xF0, 0x90, 0x90, 0x90, 0xF0, 9] := by decide
/-- D-T29. -/
theorem test_ldVxIndI_faults :
    let t := ran 0xF165 { regs2 0 1 1 2 with i := 0xFFF }
    t.mode = .faulted ⟨.outOfBounds, 0x1000, false, .read⟩ ∧ t.reg 0 = 1 ∧ t.reg 1 = 2 := by decide
/-- D-T31. -/
theorem test_ldVxK :
    let t := ran 0xF10A { atPc 0x204 with events := ⟨[some 7], 0⟩ }
    t.reg 1 = 7 ∧ t.pc = 0x206 ∧ t.mode = .running := by decide
/-- D-T32. -/
theorem test_ldVxK_waits :
    let t := ran 0xF10A { atPc 0x204 with events := ⟨[none], 0⟩ }
    t.mode = .awaitingKey 1 ∧ t.pc = 0x204 := by decide

/-- D-F1 and S10: an undefined opcode changes only the mode. -/
theorem test_unknownOpcode :
    let s := { start.setReg 1 0x33 with i := 0x321 }
    let t := ran 0x8128 s
    t.mode = .faulted ⟨.unknownOpcode, 0x8128, false, .noAccess⟩ ∧ t.v = s.v ∧ t.i = s.i ∧ t.pc = 0x200 ∧
      faultReport t = (2, 0x8128, false, .noAccess) := by decide

/-- D-T4, D-T5, S11: the timers stop at 0. -/
theorem test_tick :
    (tick { start with dt := 255, st := 1 }).dt = 254 ∧ (tick { start with dt := 255, st := 1 }).st = 0 ∧
    (tick start).dt = 0 := by decide

/-- D-T34, D-T33: a tick before the poll of a waiting machine. -/
theorem test_ticks_before_a_step :
    ticksBeforeStep { start with dt := 3, ticks := ⟨[1], 0⟩ } = { start with dt := 2, ticks := ⟨[], 1⟩ } := by
  decide

/-- D-M1 to D-M4: memory at reset. -/
theorem test_reset_memory :
    (State.reset.mem.byte 0x000, State.reset.mem.byte 0x04F, State.reset.mem.byte 0x050,
      State.reset.mem.byte 0x1FF, State.reset.mem.byte 0xFFF) = (0xF0, 0x80, 0, 0, 0) := by decide

/-- The canonical form (log 2): writing what an unlisted address reads as removes the entry. -/
theorem test_put_is_canonical :
    Memory.put [(0x200, 1), (0x300, 2)] 0x200 0 = [(0x300, 2)] ∧
    Memory.put [(0x200, 1), (0x300, 2)] 0x280 3 = [(0x200, 1), (0x280, 3), (0x300, 2)] := by decide

/-! ## Witnesses: for each obligation with hypotheses, concrete values that meet all of them, at the boundaries of
its clauses -/

theorem witness_DecodeUndoesEncode : Instr.cls.wellFormed = true ∧ (Instr.drwVxVyN 15 0 15).wellFormed = true :=
  ⟨rfl, rfl⟩

theorem witness_DecodedBytesAreTheEncoding :
    decode [0x00, 0xE0] = .ok (.cls, []) ∧ decode [0xDF, 0x0F, 0x7] = .ok (.drwVxVyN 15 0 15, [0x7]) := ⟨rfl, rfl⟩

theorem witness_DispatchSelectsTheMatchingRow :
    (⟨1, 0x00E0, 0xFFFF⟩ : OpcodeRow) ∈ opcodeTable ∧ (⟨34, 0xF065, 0xF0FF⟩ : OpcodeRow) ∈ opcodeTable ∧
    (0xFF65 : Word) &&& 0xF0FF = 0xF065 := by decide

/-- `PC` at the last address an instruction can be fetched from (D-M11). -/
theorem witness_StepRunsTheDecodedInstruction :
    let s := { atPc 0xFFE with mem := [(0xFFE, 0x1F), (0xFFF, 0xFE)] }
    s.mode = .running ∧ s.pc.toNat + 1 < 0x1000 ∧
      decode [s.mem.byte s.pc.toNat, s.mem.byte (s.pc.toNat + 1)] = .ok (.jpNnn 0xFFE, []) :=
  ⟨rfl, by decide, rfl⟩

theorem witness_PlacedWordRunsFirst :
    decodeTableWord 16 0x00E0 = some .cls ∧ decodeTableWord 16 0xFF65 = some (.ldVxIndI 15) := ⟨rfl, rfl⟩

theorem witness_FirstInstructionIsAt0x200 :
    let m : Memory := [(0x200, 0x12), (0x201, 0x34)]
    decode [m.byte 0x200, m.byte 0x201] = .ok (.jpNnn 0x234, []) := rfl

/-- A queued number of ticks, and an empty queue. -/
theorem witness_WholeTicksComeBeforeAStep :
    (⟨[2], 0⟩ : Feed Nat).NextIs Config.ticksBefore 2 ∧
    State.reset.ticks.NextIs Config.ticksBefore (Config.ticksBefore 0) := ⟨.inl rfl, .inr ⟨rfl, rfl⟩⟩

/-- D-M12, D-M13 and the highest `PC`. -/
theorem witness_FetchPastTheEndFaults :
    ((atPc 0xFFF).mode = .running ∧ 0xFFF ≤ (atPc 0xFFF).pc.toNat) ∧ 0xFFF ≤ (atPc 0x1000).pc.toNat ∧
    0xFFF ≤ (atPc 0xFFFF).pc.toNat := by decide

theorem witness_UnknownOpcodeFaultsAndChangesOnlyTheMode :
    let s := atPc 0xFFE
    s.mode = .running ∧ s.pc.toNat + 1 < 0x1000 ∧
      decode [s.mem.byte s.pc.toNat, s.mem.byte (s.pc.toNat + 1)] = .error (.unknownOpcode 0) :=
  ⟨rfl, by decide, rfl⟩

/-- The state after D-F1, with a tick to come. -/
theorem witness_FaultedMachineOnlyTicks :
    (takeFault (.unknownOpcode 0x8128) { start with st := 2, ticks := ⟨[1], 0⟩ }).mode =
      .faulted ⟨.unknownOpcode, 0x8128, false, .noAccess⟩ := rfl

/-- A key, no key, and an answer that is a free value. -/
theorem witness_AwaitedKeyIsDeliveredOrPolledAgain :
    let waiting (f : Feed (Option Key)) : State := { start with mode := .awaitingKey 1, events := f }
    (waiting ⟨[some 15], 0⟩).mode = .awaitingKey 1 ∧
    (waiting ⟨[some 15], 0⟩).events.NextIs Config.keyEvent (some 15) ∧
    (waiting ⟨[none], 0⟩).events.NextIs Config.keyEvent none ∧
    (waiting ⟨[], 3⟩).events.NextIs Config.keyEvent (Config.keyEvent 3) :=
  ⟨rfl, .inl rfl, .inl rfl, .inr ⟨rfl, rfl⟩⟩

/-- Addresses on both sides of the overflow bit, the highest that arises among them, and a safe state. -/
theorem witness_FaultReportShowsKindInfoAndAccess :
    0xFFFF < 0x10000 ∧ 0x10000 ≤ 0x1000E ∧
    faultReport (takeFault (.outOfBounds 0xFFFF .read) start) = (1, 0xFFFF, false, .read) ∧
    faultReport (takeFault (.outOfBounds 0x10000 .read) start) = (1, 0, true, .read) ∧ State.reset.Safe :=
  ⟨by decide, by decide, rfl, rfl, fun _ h => by cases h⟩

theorem start_inv : start.Inv := ⟨rfl, by decide, by decide, trivial⟩

theorem witness_ResetEventRestoresTheConstructionState :
    ∃ t, t = resetEvent (takeFault (.unknownOpcode 0) (atPc 0x300)) := ⟨_, rfl⟩

/-- The longest image, one byte more, and the empty one (S15). -/
theorem witness_LoaderPlacesTheImage :
    State.reset.mem.wf = true ∧ 3584 < (List.replicate 3585 (0 : Byte)).length ∧
    (List.replicate 3584 (0 : Byte)).length ≤ 3584 ∧ ([] : List Byte).length ≤ 3584 := by
  simp only [List.length_replicate, List.length_nil]
  decide

theorem witness_EveryStepKeepsTheInvariant : start.Inv ∧ ∃ t, step start = .next t :=
  ⟨start_inv, _, rfl⟩

/-- `PC` at its bound, with the highest saved address. -/
theorem witness_EveryStepKeepsThePcBounds :
    ({ atPc 0x10FE with stack := Vector.replicate 16 0xFFE } : State).PcBounded ∧
      ∃ t, step { atPc 0x10FE with stack := Vector.replicate 16 0xFFE } = .next t := by
  refine ⟨⟨by decide, fun w hw => ?_, fun _ h => by cases h⟩, _, rfl⟩
  simp only [Vector.toList_replicate] at hw
  simp [List.eq_of_mem_replicate hw]

theorem witness_ReservedRegionIsNeverWritten :
    start.Inv ∧ (∃ t, step start = .next t) ∧ 0x1FF < 0x200 := ⟨start_inv, ⟨_, rfl⟩, by decide⟩

/-- Both sides of both ends of the write window (S2, D-M6 to D-M9). -/
theorem witness_WriteIsReadBackAndNeverClamped :
    let m : Memory := []
    m.wf = true ∧ m.write 0x1FF 1 = .error (.outOfBounds 0x1FF .write) ∧ m.write 0x200 1 = .ok [(0x200, 1)] ∧
    m.write 0xFFF 1 = .ok [(0xFFF, 1)] ∧ m.write 0x1000 1 = .error (.outOfBounds 0x1000 .write) :=
  ⟨rfl, rfl, rfl, rfl, rfl⟩

/-- The store ends at the last address of memory. -/
theorem witness_StoreIsSeenByTheNextFetch :
    (atI 0xFFE).mem.wf = true ∧ 1 ≤ (1 : RegIx).toNat ∧ 0x200 ≤ (atI 0xFFE).i.toNat ∧
    (atI 0xFFE).i.toNat + (1 : RegIx).toNat < 0x1000 ∧ ∃ t, exec (.ldIndIVx 1) (atI 0xFFE) = .next t :=
  ⟨rfl, by decide, by decide, by decide, _, rfl⟩

theorem witness_CallPushesItsOwnAddress :
    start.sp.toNat < 16 ∧ ({ start with sp := 15 } : State).sp.toNat < 16 := by decide

/-- A return with nothing outstanding, and one from a full call stack. -/
theorem witness_ReturnResumesAfterTheSavedAddress :
    start.sp.toNat < 16 ∧ ({ start with sp := 15 } : State).sp.toNat < 16 := by decide

/-- One call, and as many as there are entries. -/
theorem witness_NestedCallsReturnAfterTheFirstCall :
    start.sp.toNat < 16 ∧ [(0x210 : BitVec 12)] ≠ [] ∧ [(0x210 : BitVec 12)].length ≤ 16 ∧
    List.replicate 16 (0x210 : BitVec 12) ≠ [] ∧ (List.replicate 16 (0x210 : BitVec 12)).length ≤ 16 := by decide

theorem witness_SeventeenthCallOverwritesTheOldestFrame :
    ({ start with sp := 15 } : State).sp.toNat < 16 ∧ (List.replicate 16 (0x200 : BitVec 12)).length = 16 := by
  decide

/-- The flag clauses of the add, the subtractions and the shifts: a destination that is not `VF`, with each value of
the flag. -/
theorem witness_flag_clauses :
    (14 : RegIx) ≠ 15 ∧ ((0xFF : Byte).toNat + (1 : Byte).toNat > 255) ∧
    ¬ ((0xFE : Byte).toNat + (1 : Byte).toNat > 255) ∧ (5 : Byte).toNat > (3 : Byte).toNat ∧
    ¬ ((7 : Byte).toNat > (7 : Byte).toNat) := by decide

/-- A queued byte, and a free one. -/
theorem witness_RandomAndsOneAnswer :
    ({ start with rng := ⟨[0xB7], 0⟩ } : State).rng.NextIs Config.rngByte 0xB7 ∧
    start.rng.NextIs Config.rngByte (Config.rngByte 0) := ⟨.inl rfl, .inr ⟨rfl, rfl⟩⟩

/-- No row at the highest `I` (D17), one row at the last address (D-I13), and fifteen that end there. -/
theorem witness_DrawBlendsTheRowsAtI :
    (∀ k, k < (0 : BitVec 4).toNat → (atI 0xFFFF).effectiveAddress k < 0x1000) ∧
    (∀ k, k < (1 : BitVec 4).toNat → (atI 0xFFF).effectiveAddress k < 0x1000) ∧
    (∀ k, k < (15 : BitVec 4).toNat → (atI 0xFF1).effectiveAddress k < 0x1000) := by decide

theorem witness_CollisionMeansAPixelWasErased :
    (∀ k, k < (15 : BitVec 4).toNat → (atI 0xFF1).effectiveAddress k < 0x1000) ∧
    ∃ t, exec (.drwVxVyN 15 15 15) (atI 0xFF1) = .next t := ⟨by decide, _, rfl⟩

theorem witness_BlitInvertsTheCoveredPixels :
    ([] : List Byte).length ≤ 15 ∧ (List.replicate 15 (0xFF : Byte)).length ≤ 15 := by decide

theorem witness_DrawingTwiceRestoresTheDisplay :
    (14 : RegIx) ≠ 15 ∧ (0 : RegIx) ≠ 15 ∧
    ∀ k, k < (15 : BitVec 4).toNat → (atI 0xFF1).effectiveAddress k < 0x1000 := by decide

/-- Queued keys, and free ones. -/
theorem witness_KeypadSkipsTestTheHeldKey :
    ({ start with levels := ⟨[0x8001], 0⟩ } : State).levels.NextIs Config.heldKeys 0x8001 ∧
    start.levels.NextIs Config.heldKeys (Config.heldKeys 0) := ⟨.inl rfl, .inr ⟨rfl, rfl⟩⟩

/-- A write of the sound timer, and another instruction that completes. -/
theorem witness_ToneIsOnWhileTheSoundTimerRuns :
    (∃ t, exec (.ldStVx 4) start = .next t) ∧ (∀ x, Instr.cls ≠ .ldStVx x) ∧ ∃ t, exec .cls start = .next t :=
  ⟨⟨_, rfl⟩, by decide, _, rfl⟩

/-- The first and the last place three digits fit (D-T19). -/
theorem witness_BcdStoresThreeDigits :
    start.mem.wf = true ∧
    (0x200 ≤ (atI 0x200).effectiveAddress 0 ∧ (atI 0x200).effectiveAddress 2 < 0x1000) ∧
    0x200 ≤ (atI 0xFFD).effectiveAddress 0 ∧ (atI 0xFFD).effectiveAddress 2 < 0x1000 := by decide

/-- All registers at both ends of the program region (D-T24), and one at its last address. -/
theorem witness_BlockStoreWritesTheRegisters :
    start.mem.wf = true ∧
    (0x200 ≤ (atI 0x200).effectiveAddress 0 ∧ (atI 0x200).effectiveAddress (15 : RegIx).toNat < 0x1000) ∧
    (0x200 ≤ (atI 0xFF0).effectiveAddress 0 ∧ (atI 0xFF0).effectiveAddress (15 : RegIx).toNat < 0x1000) ∧
    0x200 ≤ (atI 0xFFF).effectiveAddress 0 ∧ (atI 0xFFF).effectiveAddress (0 : RegIx).toNat < 0x1000 := by decide

theorem witness_BlockLoadReadsTheRegisters :
    (atI 0).effectiveAddress (15 : RegIx).toNat < 0x1000 ∧ (atI 0xFF0).effectiveAddress (15 : RegIx).toNat < 0x1000 ∧
    (atI 0xFFF).effectiveAddress (0 : RegIx).toNat < 0x1000 := by decide

/-- Below the window at the first byte (D-T21, D-T26), past it at a later one (D-T20, D-T25), and past it at the
first. -/
theorem witness_StoresOutsideTheProgramRegionFault :
    ((atI 0x1FF).effectiveAddress 0 < 0x200 ∧ ∀ j, j < 0 →
      0x200 ≤ (atI 0x1FF).effectiveAddress j ∧ (atI 0x1FF).effectiveAddress j < 0x1000) ∧
    (0x1000 ≤ (atI 0xFFE).effectiveAddress 2 ∧ ∀ j, j < 2 →
      0x200 ≤ (atI 0xFFE).effectiveAddress j ∧ (atI 0xFFE).effectiveAddress j < 0x1000) ∧
    0x1000 ≤ (atI 0x1000).effectiveAddress 0 ∧ 2 < 3 ∧ 2 ≤ (2 : RegIx).toNat := by decide

/-- Past the end at a later byte (D-I12, D-T29), and at the first (D-T9). -/
theorem witness_ReadsPastTheEndFault :
    (0x1000 ≤ (atI 0xFFF).effectiveAddress 1 ∧ ∀ j, j < 1 → (atI 0xFFF).effectiveAddress j < 0x1000) ∧
    0x1000 ≤ (atI 0x1000).effectiveAddress 0 ∧ 1 < (2 : BitVec 4).toNat ∧ 1 ≤ (1 : RegIx).toNat ∧
    0 ≤ (0 : RegIx).toNat := by decide

/-- A key, no key, and an answer that is a free value. -/
theorem witness_KeyWaitCompletesOrAwaits :
    ({ start with events := ⟨[some 15], 0⟩ } : State).events.NextIs Config.keyEvent (some 15) ∧
    ({ start with events := ⟨[none], 0⟩ } : State).events.NextIs Config.keyEvent none ∧
    start.events.NextIs Config.keyEvent (Config.keyEvent 0) := ⟨.inl rfl, .inl rfl, .inr ⟨rfl, rfl⟩⟩

theorem witness_OnlyListedRegistersAreWritten : ∃ t, exec (.ldVxIndI 15) (atI 0xFF0) = .next t := ⟨_, rfl⟩

/-- A register the shift ignores, and one it overwrites without reading. -/
theorem witness_OnlyListedRegistersAreRead :
    ((2 : RegIx) ∉ readsRegs (.shrVx 1 2) ∧ ∃ t, exec (.shrVx 1 2) start = .next t) ∧
    (1 : RegIx) ∉ readsRegs (.ldVxDt 1) ∧ ∃ t, exec (.ldVxDt 1) start = .next t :=
  ⟨⟨by decide, _, rfl⟩, by decide, _, rfl⟩

/-- A flag-writing operation with a destination below `VF`, and a draw with its last row at the last address. -/
theorem witness_FlagOutputIsZeroOrOne :
    ((14 : RegIx) ≠ 15 ∧ Instr.shlVx 14 15 ∈ [.addVxVy 14 15, .subVxVy 14 15, .subnVxVy 14 15, .shrVx 14 15,
      .shlVx 14 15] ∧ ∃ t, exec (.shlVx 14 15) start = .next t) ∧
    (∀ k, k < (1 : BitVec 4).toNat → (atI 0xFFF).effectiveAddress k < 0x1000) ∧
    ∃ t, exec (.drwVxVyN 0 0 1) (atI 0xFFF) = .next t := ⟨⟨by decide, by decide, _, rfl⟩, by decide, _, rfl⟩

/-- `CLS` is none of the operations named in any clause. -/
theorem witness_StateIsWrittenOnlyByItsOperations :
    (∃ t, exec .cls start = .next t) ∧ (∀ nnn, Instr.cls ≠ .callNnn nnn ∧ Instr.cls ≠ .ret) ∧
    (∀ nnn x, Instr.cls ≠ .ldINnn nnn ∧ Instr.cls ≠ .addIVx x ∧ Instr.cls ≠ .ldFVx x) ∧
    (∀ x, Instr.cls ≠ .ldDtVx x) ∧ (∀ x, Instr.cls ≠ .ldStVx x) ∧
    ∀ x, Instr.cls ≠ .ldBVx x ∧ Instr.cls ≠ .ldIndIVx x := by
  refine ⟨⟨_, rfl⟩, ?_, ?_, ?_, ?_, ?_⟩ <;> intros <;> simp

/-- D-T9: a block load past the end of memory. -/
theorem witness_FaultingInstructionChangesOnlyTheMode :
    (atI 0x1000).Safe ∧ exec (.ldVxIndI 0) (atI 0x1000) =
      .next { atI 0x1000 with mode := .faulted ⟨.outOfBounds, 0x1000, false, .read⟩ } :=
  ⟨fun _ h => (by cases h), rfl⟩

end Sys2Proof.Machine.Tests
end

section
/-! PROOFS. The ticks before a step: the model counts the timers down in one go, the spec tick by tick
(00_scope.md R2, 60_exceptions.md R173). -/

namespace Sys2Proof.Machine

theorem tickTimes_eq_iterate_tick (n : Nat) (s : State) : tickTimes n s = Nat.iterate tick n s := by
  induction n generalizing s with
  | zero => exact tickTimes_zero s
  | succ n ih => rw [tickTimes_succ, ih, Function.iterate_succ_apply]

/-- The ticks before a step, by what the feed answers: the timers count down by it, the feed loses that answer. -/
theorem ticksBeforeStep_of_nextIs {s : State} {n : Nat} (h : s.ticks.NextIs Config.ticksBefore n) :
    ticksBeforeStep s = { tickTimes n s with ticks := s.ticks.consumed } := by
  rw [ticksBeforeStep, Feed.answer_of_nextIs h]
  rfl

/-- Settles O11: induction on the number of ticks, for any state, shows that the one-go count is the iterated tick. -/
theorem wholeTicksComeBeforeAStep : Obligations.WholeTicksComeBeforeAStep := by
  intro s n h
  rw [ticksBeforeStep_of_nextIs h, tickTimes_eq_iterate_tick]

end Sys2Proof.Machine
end

section
/-! PROOFS. The two invariants (10_state.md R20, R21, R24; 20_memory.md R41): what each end of an instruction and of a
step keeps, then every step. -/

namespace Sys2Proof.Machine

/-! ### What one instruction and one poll can do -/

/-- An instruction's next state is one of the three ends. -/
theorem execEnd_of_exec {i : Instr} {s t : State} (h : exec i s = .next t) : ExecEnd i s t := by
  obtain ⟨u, hu, hend⟩ := exec_cases i s
  obtain rfl : u = t := Host.Outcome.next.inj (hu.symm.trans h)
  exact hend

/-- A poll delivers the key that was reported and the machine runs on, or takes the answer and nothing else. -/
theorem pollAwaitedKey_cases (x : RegIx) (s : State) :
    (∃ k, (eventAnswer s).1 = some k ∧
      pollAwaitedKey x s = { (eventAnswer s).2.deliverKey x k with mode := .running }) ∨
    ((eventAnswer s).1 = none ∧ pollAwaitedKey x s = (eventAnswer s).2) := by
  cases h : (eventAnswer s).1 with
  | some k => exact .inl ⟨k, rfl, by simp only [pollAwaitedKey, h]⟩
  | none => exact .inr ⟨rfl, by simp only [pollAwaitedKey, h]⟩

/-! ### The invariant -/

theorem MemEffect.wf_of_wf {s t : State} (h : MemEffect s t) (hs : s.mem.wf = true) : t.mem.wf = true := by
  rcases h with hm | ⟨bs, hm, -⟩ <;> rw [hm]
  · exact hs
  · exact Memory.wf_putBytes _ _ _ hs

theorem MemEffect.writable_of_writable {s t : State} (h : MemEffect s t)
    (hs : ∀ c ∈ s.mem, Config.progBase ≤ c.1 ∧ c.1 < Config.memSize) :
    ∀ c ∈ t.mem, Config.progBase ≤ c.1 ∧ c.1 < Config.memSize := by
  rcases h with hm | ⟨bs, hm, hwindow⟩ <;> rw [hm]
  · exact hs
  · intro c hc
    rcases Memory.mem_putBytes hc with hold | ⟨hlow, hhigh⟩
    · exact hs c hold
    · have hne : bs ≠ [] := by rintro rfl; simp only [List.length_nil] at hhigh; omega
      have := hwindow hne
      omega

theorem FlowEffect.sp_lt {s t : State} (h : FlowEffect s t) (hs : s.sp.toNat < 16) : t.sp.toNat < 16 := by
  rcases h with ⟨hsp, -⟩ | ⟨hsp, -⟩ | ⟨hsp, -⟩ <;> rw [hsp]
  · exact hs
  · rw [State.push_sp_toNat]; omega
  · rw [State.pop_sp, poppedSp_toNat]; omega

theorem State.Inv.takeFault {s : State} (h : s.Inv) {e : Raise} (he : e.record.Legal) : (takeFault e s).Inv :=
  ⟨h.memWf, h.memWritable, h.spBound, he⟩

/-- A fault for an address outside the window of its access keeps the invariant. -/
theorem State.Inv.takeFault_outOfBounds {s : State} (h : s.Inv) {d : Nat} {access : Access}
    (houtside : outsideWindow access d) (hbound : d < 0x20000) :
    (Machine.takeFault (.outOfBounds d access) s).Inv :=
  h.takeFault (record_outOfBounds d access ▸ outOfBoundsRecord_legal d access hbound houtside)

/-- Every instruction keeps the invariant, in any mode. -/
theorem State.Inv.exec {i : Instr} {s t : State} (h : s.Inv) (he : exec i s = .next t) : t.Inv := by
  rcases execEnd_of_exec he with ⟨hmode, hmem, hflow⟩ | ⟨x, -, rfl⟩ | ⟨d, access, rfl, houtside, hbound⟩
  · exact ⟨hmem.wf_of_wf h.memWf, hmem.writable_of_writable h.memWritable, hflow.sp_lt h.spBound,
      hmode ▸ h.modeLegal⟩
  · exact ⟨h.memWf, h.memWritable, h.spBound, trivial⟩
  · exact h.takeFault_outOfBounds houtside hbound

theorem State.Inv.pollAwaitedKey {s : State} (h : s.Inv) (x : RegIx) : (pollAwaitedKey x s).Inv := by
  rcases pollAwaitedKey_cases x s with ⟨k, -, hpoll⟩ | ⟨-, hpoll⟩ <;> rw [hpoll]
  · exact ⟨h.memWf, h.memWritable, h.spBound, trivial⟩
  · exact ⟨h.memWf, h.memWritable, h.spBound, h.modeLegal⟩

theorem State.Inv.ticksBeforeStep {s : State} (h : s.Inv) : (ticksBeforeStep s).Inv :=
  ⟨h.memWf, h.memWritable, h.spBound, h.modeLegal⟩

/-- Settles O23: the ticks before a step keep the invariant, and so does each end of an Execution Unit step. -/
theorem everyStepKeepsTheInvariant : Obligations.EveryStepKeepsTheInvariant := by
  intro s t hinv hstep
  have h := hinv.ticksBeforeStep
  cases unitEnd_of_step hstep with
  | idle r mode same => exact same ▸ h
  | polls x mode polled => exact polled ▸ h.pollAwaitedKey x
  | fetchFaults mode past took =>
    have hpc := (ticksBeforeStep s).pc.isLt
    exact took ▸ h.takeFault_outOfBounds (Nat.le_max_right _ _) (by simp only [Config.memSize]; omega)
  | unknown op mode inside isUnknown took => exact took ▸ h.takeFault ⟨isUnknown, rfl, rfl⟩
  | executes i mode inside fetched executed => exact h.exec executed

/-! ### The bounds of `PC` -/

/-- A push of an address that was fetched from keeps every saved address at most 0xFFE. -/
theorem State.push_saved_le {s : State} {w : Word} (hw : w.toNat ≤ 0xFFE)
    (hs : ∀ v ∈ s.stack.toList, v.toNat ≤ 0xFFE) : ∀ v ∈ (s.push w).stack.toList, v.toNat ≤ 0xFFE := by
  intro v hv
  obtain ⟨j, hj, rfl⟩ := Vector.getElem_of_mem (Vector.mem_toList_iff.1 hv)
  rw [State.push_stack_getElem]
  split
  · exact hw
  · exact hs _ (Vector.mem_toList_iff.2 (Vector.getElem_mem hj))

theorem State.popValue_le {s : State} (hs : ∀ v ∈ s.stack.toList, v.toNat ≤ 0xFFE) : s.popValue.toNat ≤ 0xFFE :=
  hs _ (Vector.mem_toList_iff.2 (Vector.getElem_mem _))

/-- From an address that was fetched from, an instruction that completes stays within the bounds of `PC`. -/
theorem FlowEffect.pc_le {s t : State} (h : FlowEffect s t) (hpc : s.pc.toNat ≤ 0xFFE)
    (hs : ∀ v ∈ s.stack.toList, v.toNat ≤ 0xFFE) : t.pc.toNat ≤ 0x10FE := by
  have hpop := State.popValue_le hs
  rcases h with ⟨-, -, hnext | hskip | hjump⟩ | ⟨-, -, hcall⟩ | ⟨-, -, hret⟩
  · rw [hnext]; bv_omega
  · rw [hskip]; bv_omega
  · exact hjump
  · omega
  · rw [hret]; bv_omega

theorem FlowEffect.saved_le {s t : State} (h : FlowEffect s t) (hpc : s.pc.toNat ≤ 0xFFE)
    (hs : ∀ v ∈ s.stack.toList, v.toNat ≤ 0xFFE) : ∀ v ∈ t.stack.toList, v.toNat ≤ 0xFFE := by
  rcases h with ⟨-, hstack, -⟩ | ⟨-, hstack, -⟩ | ⟨-, hstack, -⟩ <;> rw [hstack]
  · exact hs
  · exact State.push_saved_le hpc hs
  · exact hs

/-- An instruction that was fetched keeps the bounds. -/
theorem State.PcBounded.exec {i : Instr} {s t : State} (h : s.PcBounded) (hmode : s.mode = .running)
    (hpc : s.pc.toNat ≤ 0xFFE) (he : exec i s = .next t) : t.PcBounded := by
  rcases execEnd_of_exec he with ⟨hkept, -, hflow⟩ | ⟨x, -, rfl⟩ | ⟨d, access, rfl, -, -⟩
  · refine ⟨hflow.pc_le hpc h.stack, hflow.saved_le hpc h.stack, fun x hx => ?_⟩
    rw [hkept, hmode] at hx
    cases hx
  · exact ⟨h.pc, h.stack, fun _ _ => hpc⟩
  · exact ⟨h.pc, h.stack, nofun⟩

theorem State.PcBounded.takeFault {s : State} (h : s.PcBounded) (e : Raise) : (takeFault e s).PcBounded :=
  ⟨h.pc, h.stack, nofun⟩

/-- A poll of a waiting machine keeps the bounds: its `PC` is that of the instruction that waits. -/
theorem State.PcBounded.pollAwaitedKey {s : State} (h : s.PcBounded) {x : RegIx} (hmode : s.mode = .awaitingKey x) :
    (pollAwaitedKey x s).PcBounded := by
  have hpc := h.waiting x hmode
  rcases pollAwaitedKey_cases x s with ⟨k, -, hpoll⟩ | ⟨-, hpoll⟩ <;> rw [hpoll]
  · refine ⟨?_, h.stack, nofun⟩
    simp only [State.deliverKey_pc, eventAnswer_pc]
    bv_omega
  · exact ⟨h.pc, h.stack, h.waiting⟩

theorem State.PcBounded.ticksBeforeStep {s : State} (h : s.PcBounded) : (ticksBeforeStep s).PcBounded :=
  ⟨h.pc, h.stack, h.waiting⟩

/-- Settles O24: only an instruction below 0xFFF is fetched, so what it adds to `PC` or saves stays in the bounds. -/
theorem everyStepKeepsThePcBounds : Obligations.EveryStepKeepsThePcBounds := by
  intro s t hbounded hstep
  have h := hbounded.ticksBeforeStep
  cases unitEnd_of_step hstep with
  | idle r mode same => exact same ▸ h
  | polls x mode polled => exact polled ▸ h.pollAwaitedKey mode
  | fetchFaults mode past took => exact took ▸ h.takeFault _
  | unknown op mode inside isUnknown took => exact took ▸ h.takeFault _
  | executes i mode inside fetched executed =>
    have hpc : (ticksBeforeStep s).pc.toNat ≤ 0xFFE := by simp only [Config.memSize] at inside; omega
    exact h.exec mode hpc executed

/-- Settles O22: memory lists nothing, `SP` is 0, the mode is `Running`, `PC` is 0x200 and every saved address 0. -/
theorem resetMeetsTheInvariants : Obligations.ResetMeetsTheInvariants := by
  have hinv : State.reset.Inv := ⟨Memory.wf_nil, nofun, by decide, trivial⟩
  refine ⟨hinv, by decide, fun w hw => ?_, nofun⟩
  simp only [State.reset, Vector.toList_replicate] at hw
  simp [List.eq_of_mem_replicate hw]

end Sys2Proof.Machine
end

section
/-! PROOFS. The step by mode, the fault report and the reset values (10_state.md R24, R28, R29). -/

namespace Sys2Proof.Machine

/-! ### The step -/

/-- A running machine executes the instruction its fetch dispatches to. -/
theorem step_of_running {s : State} {i : Instr} (hmode : s.mode = .running) (hpc : s.pc.toNat + 1 < Config.memSize)
    (hi : dispatch (opcodeOf (s.mem.byte s.pc.toNat) (s.mem.byte (s.pc.toNat + 1))) = some i) :
    step s = exec i (ticksBeforeStep s) := by
  have hfetch : fetch (ticksBeforeStep s) = _ := fetch_ok (ticksBeforeStep s) hpc
  simp only [step, unitStep, ticksBeforeStep_mode, hmode, hfetch, runOpcode, ticksBeforeStep_pc,
    ticksBeforeStep_mem, hi]

/-- Settles O8: the fetch reads the two bytes at `PC`, which the ticks before the step leave alone. -/
theorem stepRunsTheDecodedInstruction : Obligations.StepRunsTheDecodedInstruction :=
  fun _ i hmode hpc hdecode => step_of_running hmode hpc ((decode_eq_ok _ _ [] i).1 hdecode)

/-- A waiting machine makes one poll. -/
theorem step_of_awaitingKey {s : State} {x : RegIx} (hmode : s.mode = .awaitingKey x) :
    step s = .next (pollAwaitedKey x (ticksBeforeStep s)) := by
  simp only [step, unitStep, ticksBeforeStep_mode, hmode]

theorem eventAnswer_of_nextIs {s : State} {e : Option Key} (h : s.events.NextIs Config.keyEvent e) :
    eventAnswer s = (e, { s with events := s.events.consumed }) := by
  rw [eventAnswer, Feed.answer_of_nextIs h]

theorem ticksBeforeStep_consumes (s : State) : (ticksBeforeStep s).ticks = s.ticks.consumed := by
  obtain ⟨n, hn⟩ := Feed.exists_nextIs Config.ticksBefore s.ticks
  rw [ticksBeforeStep_of_nextIs hn]

theorem State.advanced_advance (s : State) : advanced s s.advance := by
  simp [advanced]

/-- A state that differs from another in one register, as `sameRegsExcept` says it. -/
theorem sameRegsExcept_setReg (s : State) (x : RegIx) (b : Byte) : sameRegsExcept [x] s (s.setReg x b) := by
  intro r hr
  rw [State.setReg_reg, if_neg (by simpa using hr)]

/-- Settles O16: by what the keypad answers, the poll delivers the key to the state after the ticks, or takes the
answer only. -/
theorem awaitedKeyIsDeliveredOrPolledAgain : Obligations.AwaitedKeyIsDeliveredOrPolledAgain := by
  intro s x e hmode he
  have hanswer : eventAnswer (ticksBeforeStep s) = (e, _) := eventAnswer_of_nextIs (s := ticksBeforeStep s) he
  have hticks := ticksBeforeStep_consumes s
  refine ⟨_, step_of_awaitingKey hmode, ?_⟩
  simp only [pollAwaitedKey, hanswer]
  cases e with
  | none =>
    exact ⟨rfl, ⟨rfl, rfl⟩, fun _ => rfl, rfl, rfl, rfl, rfl, hticks, rfl, rfl, nofun,
      fun _ => ⟨fun _ _ => rfl, rfl, hmode⟩⟩
  | some k =>
    refine ⟨rfl, ⟨rfl, rfl⟩, fun _ => rfl, rfl, rfl, rfl, rfl, hticks, rfl, rfl, fun k' hk' => ?_, nofun⟩
    cases hk'
    refine ⟨?_, sameRegsExcept_setReg (ticksBeforeStep s) x (k.zeroExtend 8), State.advanced_advance s, rfl⟩
    change ((State.deliverKey x k _).reg x).toNat = k.toNat
    have := k.isLt
    rw [State.deliverKey_reg, if_pos rfl, BitVec.zeroExtend, BitVec.toNat_setWidth]
    omega

/-! ### The fault report -/

theorem faultReport_takeFault (e : Raise) (s : State) :
    faultReport (takeFault e s) = (e.record.kind.code, e.record.info, e.record.infoOvf, e.record.access) := rfl

/-- Without a fault the report's kind is 0. -/
theorem faultReport_kind_of_safe {s : State} (h : s.Safe) : (faultReport s).1 = 0 := by
  cases hmode : s.mode with
  | running => simp only [faultReport, hmode]
  | awaitingKey x => simp only [faultReport, hmode]
  | faulted r => exact absurd hmode (h r)

/-- Settles O18: the report is the record's fields, and an OutOfBounds record splits its address at 65536. -/
theorem faultReportShowsKindInfoAndAccess : Obligations.FaultReportShowsKindInfoAndAccess := by
  refine ⟨fun s a access ha => ?_, fun s a access ha => ?_, fun s op => faultReport_takeFault _ s,
    fun s h => faultReport_kind_of_safe h⟩ <;>
    rw [faultReport_takeFault, record_outOfBounds]
  · have hovf : decide (65536 ≤ a) = false := decide_eq_false (by omega)
    have hinfo : a % 65536 = a := Nat.mod_eq_of_lt ha
    simp only [outOfBoundsRecord, FaultKind.code, hovf, hinfo]
  · have hovf : decide (65536 ≤ a) = true := decide_eq_true ha
    simp only [outOfBoundsRecord, FaultKind.code, hovf]

/-! ### Reset -/

theorem reset_byte (a : Nat) : State.reset.mem.byte a = font.getD a 0 := rfl

theorem reset_reg (x : RegIx) : State.reset.reg x = 0 := by simp [State.reg, State.reset]

/-- Settles O19: field by field; memory lists nothing, so every byte reads as unlisted. -/
theorem resetHasTheStatedValues : Obligations.ResetHasTheStatedValues := by
  refine ⟨reset_reg, rfl, rfl, rfl, fun j hj => ?_, rfl, rfl, rfl, rfl, rfl, fun row col => ?_,
    fun a _ => reset_byte a, rfl, fun a ha => ?_⟩
  · simp [State.reset]
  · exact pixel_clearedGrid row col
  · rw [reset_byte, List.getD_eq_default _ _ (show font.length ≤ a from ha)]

end Sys2Proof.Machine
end

section
/-! PROOFS. What an instruction writes: the general registers of the spec's table (10_state.md R12, R14), the flag
values (R15), and the fields that only named operations write (R16, R21, R22, 20_memory.md R48). -/

namespace Sys2Proof.Machine

/-! ### The next states of the instructions with more than one end -/

/-- A store completes with another memory, or faults. -/
theorem storeAtI_next {bs : List Byte} {s t : State} (h : storeAtI bs s = .next t) :
    (∃ m, t = { s with mem := m }.advance) ∨ ∃ e, t = takeFault e s := by
  rcases storeAtI_cases bs s with ⟨hend, -⟩ | ⟨d, hend, -⟩
  · exact .inl ⟨_, Host.Outcome.next.inj (h.symm.trans hend)⟩
  · exact .inr ⟨_, Host.Outcome.next.inj (h.symm.trans hend)⟩

/-- A draw blends some rows, or faults. -/
theorem execDrwVxVyN_next {x y : RegIx} {n : BitVec 4} {s t : State} (h : execDrwVxVyN x y n s = .next t) :
    (∃ rows, t = (drawRows x y rows s).advance) ∨ ∃ e, t = takeFault e s := by
  rcases execDrwVxVyN_cases x y n s with ⟨hend, -⟩ | ⟨d, hend, -⟩
  · exact .inl ⟨_, Host.Outcome.next.inj (h.symm.trans hend)⟩
  · exact .inr ⟨_, Host.Outcome.next.inj (h.symm.trans hend)⟩

/-- A block load fills `V[0]` to `V[x]`, or faults. -/
theorem execLdVxIndI_next {x : RegIx} {s t : State} (h : execLdVxIndI x s = .next t) :
    (∃ bs, bs.length = x.toNat + 1 ∧ t = (s.setRegsFrom 0 bs).advance) ∨ ∃ e, t = takeFault e s := by
  rcases execLdVxIndI_cases x s with ⟨hend, -⟩ | ⟨d, hend, -⟩
  · exact .inl ⟨_, by simp, Host.Outcome.next.inj (h.symm.trans hend)⟩
  · exact .inr ⟨_, Host.Outcome.next.inj (h.symm.trans hend)⟩

/-- A key wait delivers a key, or begins to wait. -/
theorem execLdVxK_next {x : RegIx} {s t : State} (h : execLdVxK x s = .next t) :
    (∃ k, t = (eventAnswer s).2.deliverKey x k) ∨ t = { (eventAnswer s).2 with mode := .awaitingKey x } := by
  obtain rfl := Host.Outcome.next.inj h
  cases (eventAnswer s).1 with
  | some k => exact .inl ⟨k, rfl⟩
  | none => exact .inr rfl

/-! ### The registers each form of write leaves alone -/

theorem mem_regsTo {r x : RegIx} : r ∈ regsTo x ↔ r.toNat ≤ x.toNat := by
  have hx := x.isLt
  simp only [regsTo, List.mem_map, List.mem_range, Nat.lt_succ_iff]
  constructor
  · rintro ⟨k, hk, rfl⟩
    rw [BitVec.toNat_ofNat]
    exact (Nat.mod_le k _).trans hk
  · exact fun h => ⟨r.toNat, h, BitVec.ofNat_toNat .. |>.trans (BitVec.setWidth_eq r)⟩

theorem sameRegsExcept_setFlagThenReg (s : State) (f : Byte) (x : RegIx) (b : Byte) :
    sameRegsExcept [Config.flagReg, x] s (s.setFlagThenReg f x b) := by
  intro r hr
  simp only [flagReg_eq, List.mem_cons, List.not_mem_nil, or_false, not_or] at hr
  rw [State.setFlagThenReg_reg, if_neg hr.2, if_neg hr.1]

theorem sameRegsExcept_drawRows (s : State) (x y : RegIx) (rows : List Byte) :
    sameRegsExcept [Config.flagReg] s (drawRows x y rows s) := by
  intro r hr
  rw [drawRows_reg, if_neg (by simpa using hr)]

theorem sameRegsExcept_setRegsFrom (s : State) (x : RegIx) (bs : List Byte) (hlen : bs.length = x.toNat + 1) :
    sameRegsExcept (regsTo x) s (s.setRegsFrom 0 bs) := by
  intro r hr
  have hx := x.isLt
  rw [mem_regsTo] at hr
  rw [State.setRegsFrom_reg _ _ _ (by omega), if_neg (by omega)]

/-- Settles O56: the instructions by the form of their write: none, one register, `VF` and one register, `VF` alone,
or the block `V[0]` to `V[x]`. -/
theorem onlyListedRegistersAreWritten : Obligations.OnlyListedRegistersAreWritten := by
  intro i s t h
  cases i with
  | cls | ret | jpNnn _ | callNnn _ | seVxKk _ _ | sneVxKk _ _ | seVxVy _ _ | sneVxVy _ _ | ldINnn _ | jpV0Nnn _
  | skpVx _ | sknpVx _ | ldDtVx _ | ldStVx _ | addIVx _ | ldFVx _ =>
    obtain rfl := Host.Outcome.next.inj h
    exact fun _ _ => rfl
  | ldVxKk x _ | addVxKk x _ | ldVxVy x _ | orVxVy x _ | andVxVy x _ | xorVxVy x _ | ldVxDt x =>
    obtain rfl := Host.Outcome.next.inj h
    exact sameRegsExcept_setReg s x _
  | rndVxKk x _ =>
    obtain rfl := Host.Outcome.next.inj h
    exact sameRegsExcept_setReg (rngAnswer s).2 x _
  | addVxVy x _ | subVxVy x _ | shrVx x _ | subnVxVy x _ | shlVx x _ =>
    obtain rfl := Host.Outcome.next.inj h
    exact sameRegsExcept_setFlagThenReg s _ x _
  | ldVxK x =>
    rcases execLdVxK_next h with ⟨k, rfl⟩ | rfl
    · exact sameRegsExcept_setReg (eventAnswer s).2 x _
    · exact fun _ _ => rfl
  | ldBVx _ | ldIndIVx _ => rcases storeAtI_next h with ⟨m, rfl⟩ | ⟨e, rfl⟩ <;> exact fun _ _ => rfl
  | drwVxVyN x y _ =>
    rcases execDrwVxVyN_next h with ⟨rows, rfl⟩ | ⟨e, rfl⟩
    · exact sameRegsExcept_drawRows s x y rows
    · exact fun _ _ => rfl
  | ldVxIndI x =>
    rcases execLdVxIndI_next h with ⟨bs, hlen, rfl⟩ | ⟨e, rfl⟩
    · exact sameRegsExcept_setRegsFrom s x bs hlen
    · exact fun _ _ => rfl

/-! ### The flag -/

theorem boolToBit_eq (c : Bool) : boolToBit c = 0 ∨ boolToBit c = 1 := by
  cases c
  · exact .inl rfl
  · exact .inr rfl

/-- A flag computed as a bit is what `VF` holds, unless the result is written over it. -/
theorem flag_of_setFlagThenReg {s : State} {x : RegIx} (hx : x ≠ 15) (c : Bool) (b : Byte) :
    (s.setFlagThenReg (boolToBit c) x b).reg 15 = 0 ∨ (s.setFlagThenReg (boolToBit c) x b).reg 15 = 1 := by
  rw [State.setFlagThenReg_reg, if_neg (Ne.symm hx), if_pos rfl]
  exact boolToBit_eq c

/-- A draw whose rows all exist completes. -/
theorem execDrwVxVyN_of_rowsExist {x y : RegIx} {n : BitVec 4} {s : State}
    (hrows : ∀ k, k < n.toNat → s.effectiveAddress k < 0x1000) :
    execDrwVxVyN x y n s =
      .next (drawRows x y ((List.range' s.i.toNat n.toNat).map s.mem.byte) s).advance := by
  rcases execDrwVxVyN_cases x y n s with ⟨hend, -⟩ | ⟨d, -, houtside, hlow, hhigh⟩
  · exact hend
  · have hrow := hrows (d - s.i.toNat) (by omega)
    rw [State.effectiveAddress_eq] at hrow
    simp only [outsideWindow, Config.memSize] at houtside
    omega

/-- Settles O58: each of the six operations puts a bit into `VF`; the five arithmetic ones leave it there, as their
destination is another register. -/
theorem flagOutputIsZeroOrOne : Obligations.FlagOutputIsZeroOrOne := by
  rintro s t x y n i (⟨hx, hi⟩ | ⟨rfl, hrows⟩) h
  · simp only [List.mem_cons, List.not_mem_nil, or_false] at hi
    rcases hi with rfl | rfl | rfl | rfl | rfl <;> obtain rfl := Host.Outcome.next.inj h <;>
      exact flag_of_setFlagThenReg hx _ _
  · obtain rfl := Host.Outcome.next.inj ((execDrwVxVyN_of_rowsExist hrows).symm.trans h)
    rw [State.advance_reg, drawRows_reg, if_pos rfl]
    exact boolToBit_eq _

/-! ### The fields that only named operations write -/

/-- Settles O59: an instruction named in one clause keeps what the other clauses speak of, any other keeps all of it,
and a fault changes only the mode. -/
theorem stateIsWrittenOnlyByItsOperations : Obligations.StateIsWrittenOnlyByItsOperations := by
  intro i s t h
  cases i with
  | cls | jpNnn _ | seVxKk _ _ | sneVxKk _ _ | seVxVy _ _ | sneVxVy _ _ | jpV0Nnn _ | skpVx _ | sknpVx _
  | ldVxKk _ _ | addVxKk _ _ | ldVxVy _ _ | orVxVy _ _ | andVxVy _ _ | xorVxVy _ _ | ldVxDt _ | rndVxKk _ _
  | addVxVy _ _ | subVxVy _ _ | shrVx _ _ | subnVxVy _ _ | shlVx _ _ =>
    obtain rfl := Host.Outcome.next.inj h
    exact ⟨fun _ => rfl, fun _ => ⟨rfl, rfl⟩, fun _ => rfl, fun _ => rfl, fun _ _ => rfl⟩
  | ldINnn nnn =>
    obtain rfl := Host.Outcome.next.inj h
    exact ⟨fun hi => absurd rfl (hi nnn 0).1, fun _ => ⟨rfl, rfl⟩, fun _ => rfl, fun _ => rfl, fun _ _ => rfl⟩
  | addIVx x =>
    obtain rfl := Host.Outcome.next.inj h
    exact ⟨fun hi => absurd rfl (hi 0 x).2.1, fun _ => ⟨rfl, rfl⟩, fun _ => rfl, fun _ => rfl, fun _ _ => rfl⟩
  | ldFVx x =>
    obtain rfl := Host.Outcome.next.inj h
    exact ⟨fun hi => absurd rfl (hi 0 x).2.2, fun _ => ⟨rfl, rfl⟩, fun _ => rfl, fun _ => rfl, fun _ _ => rfl⟩
  | callNnn nnn =>
    obtain rfl := Host.Outcome.next.inj h
    exact ⟨fun _ => rfl, fun hi => absurd rfl (hi nnn).1, fun _ => rfl, fun _ => rfl, fun _ _ => rfl⟩
  | ret =>
    obtain rfl := Host.Outcome.next.inj h
    exact ⟨fun _ => rfl, fun hi => absurd rfl (hi 0).2, fun _ => rfl, fun _ => rfl, fun _ _ => rfl⟩
  | ldDtVx x =>
    obtain rfl := Host.Outcome.next.inj h
    exact ⟨fun _ => rfl, fun _ => ⟨rfl, rfl⟩, fun hi => absurd rfl (hi x), fun _ => rfl, fun _ _ => rfl⟩
  | ldStVx x =>
    obtain rfl := Host.Outcome.next.inj h
    exact ⟨fun _ => rfl, fun _ => ⟨rfl, rfl⟩, fun _ => rfl, fun hi => absurd rfl (hi x), fun _ _ => rfl⟩
  | ldBVx x =>
    rcases storeAtI_next h with ⟨m, rfl⟩ | ⟨e, rfl⟩ <;>
      exact ⟨fun _ => rfl, fun _ => ⟨rfl, rfl⟩, fun _ => rfl, fun _ => rfl, fun hi => absurd rfl (hi x).1⟩
  | ldIndIVx x =>
    rcases storeAtI_next h with ⟨m, rfl⟩ | ⟨e, rfl⟩ <;>
      exact ⟨fun _ => rfl, fun _ => ⟨rfl, rfl⟩, fun _ => rfl, fun _ => rfl, fun hi => absurd rfl (hi x).2⟩
  | ldVxK _ =>
    rcases execLdVxK_next h with ⟨k, rfl⟩ | rfl <;>
      exact ⟨fun _ => rfl, fun _ => ⟨rfl, rfl⟩, fun _ => rfl, fun _ => rfl, fun _ _ => rfl⟩
  | drwVxVyN _ _ _ =>
    rcases execDrwVxVyN_next h with ⟨rows, rfl⟩ | ⟨e, rfl⟩ <;>
      exact ⟨fun _ => rfl, fun _ => ⟨rfl, rfl⟩, fun _ => rfl, fun _ => rfl, fun _ _ => rfl⟩
  | ldVxIndI _ =>
    rcases execLdVxIndI_next h with ⟨bs, -, rfl⟩ | ⟨e, rfl⟩
    · exact ⟨fun _ => by simp, fun _ => ⟨by simp, by simp⟩, fun _ => by simp, fun _ => by simp,
        fun _ _ => by simp⟩
    · exact ⟨fun _ => rfl, fun _ => ⟨rfl, rfl⟩, fun _ => rfl, fun _ => rfl, fun _ _ => rfl⟩

end Sys2Proof.Machine
end

section
/-! PROOFS. What an instruction reads (10_state.md R12): one instruction run twice, the second time with another value
in a register it does not read. -/

namespace Sys2Proof.Machine

/-! ### Two writes of registers -/

theorem State.setReg_setReg_same (s : State) (r : RegIx) (a b : Byte) : (s.setReg r a).setReg r b = s.setReg r b := by
  simp [State.setReg]

theorem State.setReg_comm (s : State) {q r : RegIx} (h : q ≠ r) (a b : Byte) :
    (s.setReg q a).setReg r b = (s.setReg r b).setReg q a := by
  have hne : q.toNat ≠ r.toNat := fun e => h (BitVec.eq_of_toNat_eq e)
  simp only [State.setReg, Vector.set_comm _ _ hne]

theorem State.setReg_reg_of_ne (s : State) {q r : RegIx} (h : q ≠ r) (b : Byte) : (s.setReg r b).reg q = s.reg q := by
  rw [State.setReg_reg, if_neg h]

/-- The registers up to `V[x]` do not show a write above them. -/
theorem State.regsUpTo_setReg (s : State) {x r : RegIx} (h : x.toNat < r.toNat) (b : Byte) :
    (s.setReg r b).regsUpTo x = s.regsUpTo x := by
  simp only [State.regsUpTo, State.setReg, Vector.toList_set]
  exact List.take_set_of_le h

/-! ### The two runs of an instruction -/

/-- How the second run, begun with `b` in `V[r]`, ends where the first ends in `t`: `V[r]` still holds `b` and all else
is as in `t`, or `V[r]` is among the registers written and the end is `t` itself. -/
def Rerun (written : List RegIx) (r : RegIx) (b : Byte) (t t' : State) : Prop :=
  t' = t.setReg r b ∨ r ∈ written ∧ t' = t

/-- The end of the second run as the noninterference statement puts it. -/
theorem Rerun.agree {written : List RegIx} {r : RegIx} {b : Byte} {t t' : State} (h : Rerun written r b t t') :
    t'.setReg r 0 = t.setReg r 0 ∧ (t'.reg r = b ∨ r ∈ written ∧ t'.reg r = t.reg r) := by
  rcases h with rfl | ⟨hr, rfl⟩
  · exact ⟨State.setReg_setReg_same .., .inl (by rw [State.setReg_reg, if_pos rfl])⟩
  · exact ⟨rfl, .inr ⟨hr, rfl⟩⟩

theorem Rerun.advance {written : List RegIx} {r : RegIx} {b : Byte} {t t' : State} (h : Rerun written r b t t') :
    Rerun written r b t.advance t'.advance := by
  rcases h with rfl | ⟨hr, rfl⟩
  · exact .inl rfl
  · exact .inr ⟨hr, rfl⟩

/-- One register written with the same value in both runs. -/
theorem Rerun.setReg (s : State) (x r : RegIx) (b : Byte) {v v' : Byte} (hv : v' = v) :
    Rerun [x] r b (s.setReg x v) ((s.setReg r b).setReg x v') := by
  subst hv
  by_cases h : r = x
  · subst h
    exact .inr ⟨List.mem_singleton_self r, State.setReg_setReg_same ..⟩
  · exact .inl (State.setReg_comm s h _ _)

/-- A further register written after it, with the same value in both runs. -/
theorem Rerun.andSetReg {written : List RegIx} {r : RegIx} {b : Byte} {t t' : State} (h : Rerun written r b t t')
    (x : RegIx) {v v' : Byte} (hv : v' = v) :
    Rerun (written ++ [x]) r b (t.setReg x v) (t'.setReg x v') := by
  subst hv
  rcases h with rfl | ⟨hr, rfl⟩
  · rcases Rerun.setReg t x r b rfl with hsame | ⟨hx, hsame⟩
    · exact .inl hsame
    · exact .inr ⟨List.mem_append_right _ hx, hsame⟩
  · exact .inr ⟨List.mem_append_left _ hr, rfl⟩

theorem Rerun.setFlagThenReg (s : State) (x r : RegIx) (b : Byte) {f f' v v' : Byte} (hf : f' = f) (hv : v' = v) :
    Rerun [Config.flagReg, x] r b (s.setFlagThenReg f x v) ((s.setReg r b).setFlagThenReg f' x v') :=
  (Rerun.setReg s Config.flagReg r b hf).andSetReg x hv

/-- A block of registers loaded with the same bytes in both runs. -/
theorem setRegsFrom_setReg (s : State) (k : Nat) (bs : List Byte) (hk : k + bs.length ≤ 16) (r : RegIx) (b : Byte) :
    (s.setReg r b).setRegsFrom k bs = (s.setRegsFrom k bs).setReg r b ∨
      (k ≤ r.toNat ∧ r.toNat < k + bs.length) ∧ (s.setReg r b).setRegsFrom k bs = s.setRegsFrom k bs := by
  induction bs generalizing s k with
  | nil => exact .inl rfl
  | cons c bs ih =>
    simp only [List.length_cons] at hk ⊢
    simp only [State.setRegsFrom]
    by_cases h : r = BitVec.ofNat 4 k
    · have hr : r.toNat = k := by rw [h, BitVec.toNat_ofNat, Nat.mod_eq_of_lt (by omega)]
      exact .inr ⟨by omega, by rw [← h, State.setReg_setReg_same]⟩
    · rw [State.setReg_comm s h]
      rcases ih (s.setReg (BitVec.ofNat 4 k) c) (k + 1) (by omega) with hkept | ⟨hin, hsame⟩
      · exact .inl hkept
      · exact .inr ⟨by omega, hsame⟩

theorem Rerun.setRegsFrom (s : State) (x r : RegIx) (b : Byte) (bs : List Byte) (hlen : bs.length = x.toNat + 1) :
    Rerun (regsTo x) r b (s.setRegsFrom 0 bs) ((s.setReg r b).setRegsFrom 0 bs) := by
  have hx := x.isLt
  rcases setRegsFrom_setReg s 0 bs (by omega) r b with hkept | ⟨hin, hsame⟩
  · exact .inl hkept
  · exact .inr ⟨mem_regsTo.2 (by omega), hsame⟩

/-- A draw at the same place of the same rows. -/
theorem Rerun.drawRows (s : State) {x y r : RegIx} (hx : x ≠ r) (hy : y ≠ r) (b : Byte) (rows : List Byte) :
    Rerun [Config.flagReg] r b (drawRows x y rows s) (drawRows x y rows (s.setReg r b)) := by
  simp only [Machine.drawRows, State.setReg_reg_of_ne s hx, State.setReg_reg_of_ne s hy]
  exact Rerun.setReg { s with display := _ } _ r b rfl

/-- An access that can fault, with the same answer in both runs: both complete, or both take the same fault. -/
theorem Rerun.completeOrFault {α : Type} {written : List RegIx} {s t : State} {r : RegIx} {b : Byte}
    {answer : Except Raise α} {f f' : α → State}
    (hf : ∀ a, answer = .ok a → Rerun written r b (f a) (f' a))
    (h : completeOrFault s (answer.map f) = .next t) :
    ∃ t', Machine.completeOrFault (s.setReg r b) (answer.map f') = .next t' ∧ Rerun written r b t t' := by
  cases answer with
  | error e =>
    obtain rfl := Host.Outcome.next.inj h
    exact ⟨_, rfl, .inl rfl⟩
  | ok a =>
    obtain rfl := Host.Outcome.next.inj h
    exact ⟨_, rfl, hf a rfl⟩

theorem Memory.readBlock_length {m : Memory} {a n : Nat} {bs : List Byte} (h : m.readBlock a n = .ok bs) :
    bs.length = n := by
  rcases Memory.readBlock_cases m a n with ⟨hend, -⟩ | ⟨d, hend, -⟩
  · cases hend.symm.trans h
    simp
  · cases hend.symm.trans h

/-- The store as an access and what is done with its answer. -/
theorem storeAtI_eq_map (bs : List Byte) (s : State) :
    storeAtI bs s = completeOrFault s
      ((s.mem.writeBlock s.i.toNat bs).map fun m => { s with mem := m }.advance) := by
  simp only [storeAtI, State.effectiveAddress_eq, Nat.add_zero]
  cases s.mem.writeBlock s.i.toNat bs <;> rfl

/-- The draw as an access and what is done with its answer. -/
theorem execDrwVxVyN_eq_map (x y : RegIx) (n : BitVec 4) (s : State) :
    execDrwVxVyN x y n s = completeOrFault s
      ((s.mem.readBlock s.i.toNat n.toNat).map fun rows => (drawRows x y rows s).advance) := by
  simp only [execDrwVxVyN, State.effectiveAddress_eq, Nat.add_zero]
  cases s.mem.readBlock s.i.toNat n.toNat <;> rfl

/-- The block load as an access and what is done with its answer. -/
theorem execLdVxIndI_eq_map (x : RegIx) (s : State) :
    execLdVxIndI x s = completeOrFault s
      ((s.mem.readBlock s.i.toNat (x.toNat + 1)).map fun bs => (s.setRegsFrom 0 bs).advance) := by
  simp only [execLdVxIndI, State.effectiveAddress_eq, Nat.add_zero]
  cases s.mem.readBlock s.i.toNat (x.toNat + 1) <;> rfl

/-- A store of the same bytes, whatever the registers hold. -/
theorem storeAtI_rerun {bs : List Byte} {s t : State} (h : storeAtI bs s = .next t) (r : RegIx) (b : Byte) :
    ∃ t', storeAtI bs (s.setReg r b) = .next t' ∧ Rerun [] r b t t' := by
  rw [storeAtI_eq_map] at h ⊢
  exact Rerun.completeOrFault (fun _ _ => .inl rfl) h

/-- The two runs of any instruction, for a register it does not read: by the form of its write, with its operands the
same in both. -/
theorem exec_rerun {i : Instr} {s t : State} {r : RegIx} (hr : r ∉ readsRegs i) (b : Byte) (h : exec i s = .next t) :
    ∃ t', exec i (s.setReg r b) = .next t' ∧ Rerun (writesRegs i) r b t t' := by
  have hread : ∀ q ∈ readsRegs i, (s.setReg r b).reg q = s.reg q := fun q hq =>
    State.setReg_reg_of_ne s (by rintro rfl; exact hr hq) b
  cases i with
  | cls | ret | jpNnn _ | callNnn _ | ldINnn _ =>
    obtain rfl := Host.Outcome.next.inj h
    exact ⟨_, rfl, .inl rfl⟩
  | seVxKk x _ | sneVxKk x _ | jpV0Nnn _ | skpVx x | sknpVx x | ldDtVx x | ldStVx x | addIVx x | ldFVx x =>
    obtain rfl := Host.Outcome.next.inj h
    have hx := hread _ (.head _)
    exact ⟨_, rfl, .inl (by simp only [hx]; rfl)⟩
  | seVxVy x y | sneVxVy x y =>
    obtain rfl := Host.Outcome.next.inj h
    have hx := hread x (.head _)
    have hy := hread y (.tail _ (.head _))
    exact ⟨_, rfl, .inl (by simp only [hx, hy]; rfl)⟩
  | ldVxKk x _ | ldVxDt x =>
    obtain rfl := Host.Outcome.next.inj h
    exact ⟨_, rfl, (Rerun.setReg s x r b rfl).advance⟩
  | rndVxKk x _ =>
    obtain rfl := Host.Outcome.next.inj h
    exact ⟨_, rfl, (Rerun.setReg (rngAnswer s).2 x r b rfl).advance⟩
  | addVxKk x _ =>
    obtain rfl := Host.Outcome.next.inj h
    have hx := hread x (.head _)
    exact ⟨_, rfl, (Rerun.setReg s x r b (by rw [hx])).advance⟩
  | ldVxVy x y =>
    obtain rfl := Host.Outcome.next.inj h
    exact ⟨_, rfl, (Rerun.setReg s x r b (hread y (.head _))).advance⟩
  | orVxVy x y | andVxVy x y | xorVxVy x y =>
    obtain rfl := Host.Outcome.next.inj h
    have hx := hread x (.head _)
    have hy := hread y (.tail _ (.head _))
    exact ⟨_, rfl, (Rerun.setReg s x r b (by rw [hx, hy])).advance⟩
  | addVxVy x y | subVxVy x y | subnVxVy x y =>
    obtain rfl := Host.Outcome.next.inj h
    have hx := hread x (.head _)
    have hy := hread y (.tail _ (.head _))
    exact ⟨_, rfl, (Rerun.setFlagThenReg s x r b (by rw [hx, hy]) (by rw [hx, hy])).advance⟩
  | shrVx x _ | shlVx x _ =>
    obtain rfl := Host.Outcome.next.inj h
    have hx := hread x (.head _)
    exact ⟨_, rfl, (Rerun.setFlagThenReg s x r b (by rw [hx]) (by rw [hx])).advance⟩
  | ldVxK x =>
    obtain rfl := Host.Outcome.next.inj h
    refine ⟨_, rfl, ?_⟩
    rw [eventAnswer_setReg]
    cases (eventAnswer s).1 with
    | some k => exact (Rerun.setReg (eventAnswer s).2 x r b rfl).advance
    | none => exact .inl rfl
  | ldBVx x =>
    simp only [exec, execLdBVx, hread x (.head _)] at h ⊢
    exact storeAtI_rerun h r b
  | ldIndIVx x =>
    have hx : x.toNat < r.toNat := Nat.lt_of_not_le fun hle => hr (mem_regsTo.2 hle)
    simp only [exec, execLdIndIVx, State.regsUpTo_setReg s hx] at h ⊢
    exact storeAtI_rerun h r b
  | ldVxIndI x =>
    simp only [exec, execLdVxIndI_eq_map] at h ⊢
    exact Rerun.completeOrFault (fun bs hbs => (Rerun.setRegsFrom s x r b bs (Memory.readBlock_length hbs)).advance) h
  | drwVxVyN x y n =>
    have hx : x ≠ r := by rintro rfl; exact hr (.head _)
    have hy : y ≠ r := by rintro rfl; exact hr (.tail _ (.head _))
    simp only [exec, execDrwVxVyN_eq_map] at h ⊢
    exact Rerun.completeOrFault (fun rows _ => (Rerun.drawRows s hx hy b rows).advance) h

/-- Settles O57: the second run of the instruction ends as `Rerun` says, which is what the statement asks of it. -/
theorem onlyListedRegistersAreRead : Obligations.OnlyListedRegistersAreRead := by
  intro i s t r b hr h
  obtain ⟨t', ht', hrerun⟩ := exec_rerun hr b h
  exact ⟨t', ht', hrerun.agree⟩

end Sys2Proof.Machine
end

section
/-! PROOFS. Memory (20_memory.md): the checked write, the program loader, the reserved region, and the fetch that sees
a store or passes the end of memory. -/

namespace Sys2Proof.Machine

/-! ### The checked accesses of one byte -/

theorem Memory.read_ok (m : Memory) (access : Access) {a : Nat} (h : a < Config.memSize) :
    m.read access a = .ok (m.byte a) :=
  if_neg (Nat.not_le_of_lt h)

theorem Memory.write_outside (m : Memory) {a : Nat} (b : Byte) (h : outsideWindow .write a) :
    m.write a b = .error (.outOfBounds a .write) :=
  if_pos h

theorem Memory.write_ok (m : Memory) {a : Nat} (b : Byte) (h : ¬ outsideWindow .write a) :
    m.write a b = .ok (m.put a b) :=
  if_neg h

/-- Settles O26: outside the window the write raises for its address; inside, it is a put, which changes one byte. -/
theorem writeIsReadBackAndNeverClamped : Obligations.WriteIsReadBackAndNeverClamped := by
  intro m a b hwf
  refine ⟨m.write_outside b, fun hlow hhigh => ⟨_, m.write_ok b ?_, ?_, fun d hd => ?_⟩⟩
  · rintro (hbelow | habove)
    · exact Nat.not_le_of_lt hbelow hlow
    · exact Nat.not_le_of_lt hhigh habove
  · rw [Memory.read_ok _ .read hhigh, Memory.byte_put m a b hwf, if_pos rfl]
  · rw [Memory.byte_put m a b hwf, if_neg hd]

/-! ### The program loader -/

/-- An image longer than the program region is refused. -/
theorem loadImage_tooLong {image : List Byte} (s : State) (h : Config.progMaxLen < image.length) :
    loadImage image s = none :=
  if_neg (Nat.not_le_of_lt h)

theorem loadImage_fits {image : List Byte} (s : State) (h : image.length ≤ Config.progMaxLen) :
    loadImage image s = some { s with mem := s.mem.putBytes Config.progBase image } :=
  if_pos h

/-- Byte `j` of a list put from `a` upward is read at `a + j`. -/
theorem Memory.byte_putBytes_at {m : Memory} (hm : m.wf = true) (a : Nat) {bs : List Byte} {j : Nat}
    (h : j < bs.length) : (m.putBytes a bs).byte (a + j) = bs[j] := by
  rw [Memory.byte_putBytes m a bs hm, if_pos (by omega), Nat.add_sub_cancel_left, List.getD_eq_getElem _ _ h]

theorem Memory.byte_putBytes_outside {m : Memory} (hm : m.wf = true) {a : Nat} {bs : List Byte} {d : Nat}
    (h : d < a ∨ a + bs.length ≤ d) : (m.putBytes a bs).byte d = m.byte d := by
  rw [Memory.byte_putBytes m a bs hm, if_neg (by omega)]

/-- Settles O21: the loader puts the image from 0x200 upward, into memory alone. -/
theorem loaderPlacesTheImage : Obligations.LoaderPlacesTheImage := by
  intro image s hwf
  refine ⟨loadImage_tooLong s, fun hlen => ⟨_, loadImage_fits s hlen, fun j hj => ?_, fun d hd => ?_, ?_, rfl⟩⟩
  · exact Memory.byte_putBytes_at hwf 0x200 hj
  · exact Memory.byte_putBytes_outside hwf hd
  · exact ⟨fun _ _ => rfl, rfl, ⟨rfl, rfl⟩, ⟨rfl, rfl⟩, rfl, rfl, rfl, rfl, rfl, rfl⟩

/-! ### The reserved region -/

/-- A memory that lists only the program region reads below it as at reset, whatever the glyphs are. -/
theorem State.Inv.byte_reserved {s : State} (h : s.Inv) {a : Nat} (ha : a < Config.progBase) :
    s.mem.byte a = State.reset.mem.byte a :=
  Memory.byte_below s.mem a fun c hc => Nat.lt_of_lt_of_le ha (h.memWritable c hc).1

/-- Settles O25: both states meet the invariant, so both read below 0x200 as at reset. -/
theorem reservedRegionIsNeverWritten : Obligations.ReservedRegionIsNeverWritten := by
  intro s t hinv hstep a ha
  have hafter := (everyStepKeepsTheInvariant s t hinv hstep).byte_reserved ha
  exact ⟨hafter.trans (hinv.byte_reserved ha).symm, hafter⟩

/-! ### The fetch -/

/-- A store inside the program region puts its bytes and goes to the next instruction. -/
theorem storeAtI_ok {bs : List Byte} {s : State} (hlow : Config.progBase ≤ s.i.toNat)
    (hhigh : s.i.toNat + bs.length ≤ Config.memSize) :
    storeAtI bs s = .next { s with mem := s.mem.putBytes s.i.toNat bs }.advance := by
  rcases storeAtI_cases bs s with ⟨hend, -⟩ | ⟨d, -, hbelow | habove, hfirst, hlast⟩
  · exact hend
  · omega
  · omega

/-- After a block store register `k` stands at `I + k`. -/
theorem byte_putRegs {s : State} (hwf : s.mem.wf = true) {x k : RegIx} (h : k.toNat ≤ x.toNat) :
    (s.mem.putBytes s.i.toNat (s.regsUpTo x)).byte (s.i.toNat + k.toNat) = s.reg k := by
  have hk : k.toNat < (s.regsUpTo x).length := by rw [State.regsUpTo_length]; omega
  rw [Memory.byte_putBytes_at hwf _ hk, ← State.regsUpTo_getD s x k h, List.getD_eq_getElem _ _ hk]

/-- Settles O27: the store completes, and the fetch reads `V[0]` and `V[1]` where it put them. -/
theorem storeIsSeenByTheNextFetch : Obligations.StoreIsSeenByTheNextFetch := by
  intro s t x hwf hx hlow hhigh hexec
  have hlen : s.i.toNat + (s.regsUpTo x).length ≤ Config.memSize := by
    rw [State.regsUpTo_length]; exact hhigh
  obtain rfl := Host.Outcome.next.inj ((storeAtI_ok hlow hlen).symm.trans hexec)
  have hhi : (s.mem.putBytes s.i.toNat (s.regsUpTo x)).byte s.i.toNat = s.reg 0 :=
    byte_putRegs hwf (k := 0) (Nat.zero_le _)
  have hlo : (s.mem.putBytes s.i.toNat (s.regsUpTo x)).byte (s.i.toNat + 1) = s.reg 1 :=
    byte_putRegs hwf (k := 1) hx
  rw [fetch_ok _ (show s.i.toNat + 1 < 0x1000 by omega)]
  simp only [State.advance_mem, hhi, hlo]

/-- A running machine whose fetch passes the end of memory takes the fault for the first address that does not
exist. -/
theorem step_of_fetchPast {s : State} (hmode : s.mode = .running) (hpc : Config.memSize ≤ s.pc.toNat + 1) :
    step s = .next (takeFault (.outOfBounds (max s.pc.toNat Config.memSize) .fetch) (ticksBeforeStep s)) := by
  have hfetch : fetch (ticksBeforeStep s) = _ := fetch_past (ticksBeforeStep s) hpc
  simp only [step, unitStep, ticksBeforeStep_mode, hmode, hfetch, ticksBeforeStep_pc]

/-- Settles O13: the fault of such a fetch changes the mode alone, and its record is that of its address. -/
theorem fetchPastTheEndFaults : Obligations.FetchPastTheEndFaults := by
  intro s hmode hpc
  rw [step_of_fetchPast hmode (Nat.succ_le_succ hpc), takeFault, record_outOfBounds]
  rfl

end Sys2Proof.Machine
end

section
/-! PROOFS. Encoding and decoding (30_encoding.md R61, R66, R72): the fields as arithmetic, dispatch against encode, and
the dispatch tree against the opcode table and the table of undefined opcodes. -/

namespace Sys2Proof

/-- Settles O1: each word is run through the decoder. -/
theorem writtenOutWordsDecode : Obligations.WrittenOutWordsDecode :=
  ⟨rfl, rfl, rfl, rfl, rfl, rfl, rfl, rfl, rfl, rfl, rfl, rfl⟩

/-! ### The fields as arithmetic -/

theorem fieldsOf_opclass_toNat (op : Word) : (fieldsOf op).opclass.toNat = op.toNat / 4096 := by
  have := op.isLt
  simp only [fieldsOf, BitVec.extractLsb'_toNat, Nat.shiftRight_eq_div_pow]
  omega

theorem fieldsOf_nibble_toNat (op : Word) : (fieldsOf op).nibble.toNat = op.toNat % 16 := by
  simp only [fieldsOf, BitVec.extractLsb'_toNat, Nat.shiftRight_zero]

theorem fieldsOf_byte_toNat (op : Word) : (fieldsOf op).byte.toNat = op.toNat % 256 := by
  simp only [fieldsOf, BitVec.extractLsb'_toNat, Nat.shiftRight_zero]

/-- Settles O7: a slice of `l` bits from bit `k` is the opcode divided by `2 ^ k`, modulo `2 ^ l`. -/
theorem fieldsAreTheOpcodesSlices : Obligations.FieldsAreTheOpcodesSlices := by
  refine fun op => ⟨?_, fieldsOf_nibble_toNat op, ?_, ?_, fieldsOf_byte_toNat op, fieldsOf_opclass_toNat op⟩ <;>
    simp only [fieldsOf, BitVec.extractLsb'_toNat, Nat.shiftRight_eq_div_pow, Nat.reducePow, Nat.div_one]

/-! ### Decode undoes encode -/

/-- An instruction of the machine is what its opcode dispatches to, instruction by instruction. -/
theorem dispatch_encode (i : Instr) (h : i.wellFormed = true) : dispatch (encode i) = some i := by
  refine (?_ : Laws.DispatchEncode.Statement i) _ h
  cases i with
  | cls => exact Laws.DispatchEncode.cls
  | ret => exact Laws.DispatchEncode.ret
  | jpNnn nnn => exact Laws.DispatchEncode.jpNnn nnn
  | callNnn nnn => exact Laws.DispatchEncode.callNnn nnn
  | seVxKk x kk => exact Laws.DispatchEncode.seVxKk x kk
  | sneVxKk x kk => exact Laws.DispatchEncode.sneVxKk x kk
  | seVxVy x y => exact Laws.DispatchEncode.seVxVy x y
  | ldVxKk x kk => exact Laws.DispatchEncode.ldVxKk x kk
  | addVxKk x kk => exact Laws.DispatchEncode.addVxKk x kk
  | ldVxVy x y => exact Laws.DispatchEncode.ldVxVy x y
  | orVxVy x y => exact Laws.DispatchEncode.orVxVy x y
  | andVxVy x y => exact Laws.DispatchEncode.andVxVy x y
  | xorVxVy x y => exact Laws.DispatchEncode.xorVxVy x y
  | addVxVy x y => exact Laws.DispatchEncode.addVxVy x y
  | subVxVy x y => exact Laws.DispatchEncode.subVxVy x y
  | shrVx x y => exact Laws.DispatchEncode.shrVx x y
  | subnVxVy x y => exact Laws.DispatchEncode.subnVxVy x y
  | shlVx x y => exact Laws.DispatchEncode.shlVx x y
  | sneVxVy x y => exact Laws.DispatchEncode.sneVxVy x y
  | ldINnn nnn => exact Laws.DispatchEncode.ldINnn nnn
  | jpV0Nnn nnn => exact Laws.DispatchEncode.jpV0Nnn nnn
  | rndVxKk x kk => exact Laws.DispatchEncode.rndVxKk x kk
  | drwVxVyN x y n => exact Laws.DispatchEncode.drwVxVyN x y n
  | skpVx x => exact Laws.DispatchEncode.skpVx x
  | sknpVx x => exact Laws.DispatchEncode.sknpVx x
  | ldVxDt x => exact Laws.DispatchEncode.ldVxDt x
  | ldVxK x => exact Laws.DispatchEncode.ldVxK x
  | ldDtVx x => exact Laws.DispatchEncode.ldDtVx x
  | ldStVx x => exact Laws.DispatchEncode.ldStVx x
  | addIVx x => exact Laws.DispatchEncode.addIVx x
  | ldFVx x => exact Laws.DispatchEncode.ldFVx x
  | ldBVx x => exact Laws.DispatchEncode.ldBVx x
  | ldIndIVx x => exact Laws.DispatchEncode.ldIndIVx x
  | ldVxIndI x => exact Laws.DispatchEncode.ldVxIndI x

/-- Settles O2: the decoder joins the two bytes to the opcode again, and that dispatches to the instruction. -/
theorem decodeUndoesEncode : Obligations.DecodeUndoesEncode := by
  intro i rest h
  change decode (highByte (encode i) :: lowByte (encode i) :: rest) = _
  rw [decode_eq_ok, opcodeOf_bytes]
  exact dispatch_encode i h

/-! ### What decodes is an encoding -/

/-- The decoder answers an instruction only for two bytes or more, and leaves what comes after the two. -/
theorem cons_cons_of_decode {bs rest : List Byte} {i : Instr} (h : decode bs = .ok (i, rest)) :
    ∃ hi lo, bs = hi :: lo :: rest ∧ dispatch (opcodeOf hi lo) = some i := by
  match bs with
  | [] | [_] => cases h
  | hi :: lo :: tail =>
    simp only [decode] at h
    cases hd : dispatch (opcodeOf hi lo) with
    | none => simp only [hd, reduceCtorEq] at h
    | some j =>
      simp only [hd] at h
      cases h
      exact ⟨hi, lo, rfl, hd⟩

/-- Decoding two bytes names an unknown opcode exactly when it is theirs and selects nothing. -/
theorem decode_eq_unknownOpcode {hi lo : Byte} {rest : List Byte} {op : Word} :
    decode (hi :: lo :: rest) = .error (.unknownOpcode op) ↔
      opcodeOf hi lo = op ∧ dispatch (opcodeOf hi lo) = none := by
  simp only [decode]
  cases dispatch (opcodeOf hi lo) <;> simp

/-- Settles O3: the two bytes joined dispatch to the instruction, so they are the bytes of its encoding. -/
theorem decodedBytesAreTheEncoding : Obligations.DecodedBytesAreTheEncoding := by
  intro bs rest i h
  obtain ⟨hi, lo, rfl, hd⟩ := cons_cons_of_decode h
  have hencode : encode i = opcodeOf hi lo := encode_of_dispatchWith hd
  refine ⟨?_, wellFormedWith_of_dispatchWith hd⟩
  simp only [encodeBytes, hencode, highByte_opcodeOf, lowByte_opcodeOf, List.cons_append, List.nil_append]

/-! ### The undefined opcodes -/

theorem dispatch0_eq_none_iff (op : Word) :
    dispatch0 true op = none ↔ op.toNat ≠ 0x00E0 ∧ op.toNat ≠ 0x00EE := by
  simp only [dispatch0, ← BitVec.toNat_inj, and_true]
  split_ifs <;> simp_all

theorem dispatch8_eq_none_iff (f : Fields) :
    dispatch8 f = none ↔ f.nibble.toNat ∈ [0x8, 0x9, 0xA, 0xB, 0xC, 0xD, 0xF] := by
  have hlt := f.nibble.isLt
  unfold dispatch8
  generalize f.nibble.toNat = n at *
  interval_cases n <;> simp

theorem dispatchE_eq_none_iff (f : Fields) : dispatchE f = none ↔ f.byte.toNat ∉ [0x9E, 0xA1] := by
  unfold dispatchE
  split <;> simp_all

theorem dispatchF_eq_none_iff (f : Fields) :
    dispatchF f = none ↔ f.byte.toNat ∉ [0x07, 0x0A, 0x15, 0x18, 0x1E, 0x29, 0x33, 0x55, 0x65] := by
  unfold dispatchF
  split <;> simp_all

/-- Settles O5: class by class, the second switch answers nothing exactly where R72's row for the class says so. -/
theorem undefinedOpcodesAreExactlyTheTable : Obligations.UndefinedOpcodesAreExactlyTheTable := by
  intro op
  have hlt := (fieldsOf op).opclass.isLt
  rw [← fieldsOf_opclass_toNat, ← fieldsOf_nibble_toNat, ← fieldsOf_byte_toNat, dispatch]
  generalize hc : (fieldsOf op).opclass.toNat = c at *
  interval_cases c <;>
    simp [dispatchWith, Machine.hasCls, hc, dispatch0_eq_none_iff, dispatch8_eq_none_iff, dispatchE_eq_none_iff,
      dispatchF_eq_none_iff, ← BitVec.toNat_inj]

/-! ### The opcode table -/

/-- An instruction's encoding has the pattern of its row of the table, instruction by instruction. -/
theorem rowPattern (i : Instr) : Laws.RowPattern.Statement i := by
  cases i with
  | cls => exact Laws.RowPattern.cls
  | ret => exact Laws.RowPattern.ret
  | jpNnn nnn => exact Laws.RowPattern.jpNnn nnn
  | callNnn nnn => exact Laws.RowPattern.callNnn nnn
  | seVxKk x kk => exact Laws.RowPattern.seVxKk x kk
  | sneVxKk x kk => exact Laws.RowPattern.sneVxKk x kk
  | seVxVy x y => exact Laws.RowPattern.seVxVy x y
  | ldVxKk x kk => exact Laws.RowPattern.ldVxKk x kk
  | addVxKk x kk => exact Laws.RowPattern.addVxKk x kk
  | ldVxVy x y => exact Laws.RowPattern.ldVxVy x y
  | orVxVy x y => exact Laws.RowPattern.orVxVy x y
  | andVxVy x y => exact Laws.RowPattern.andVxVy x y
  | xorVxVy x y => exact Laws.RowPattern.xorVxVy x y
  | addVxVy x y => exact Laws.RowPattern.addVxVy x y
  | subVxVy x y => exact Laws.RowPattern.subVxVy x y
  | shrVx x y => exact Laws.RowPattern.shrVx x y
  | subnVxVy x y => exact Laws.RowPattern.subnVxVy x y
  | shlVx x y => exact Laws.RowPattern.shlVx x y
  | sneVxVy x y => exact Laws.RowPattern.sneVxVy x y
  | ldINnn nnn => exact Laws.RowPattern.ldINnn nnn
  | jpV0Nnn nnn => exact Laws.RowPattern.jpV0Nnn nnn
  | rndVxKk x kk => exact Laws.RowPattern.rndVxKk x kk
  | drwVxVyN x y n => exact Laws.RowPattern.drwVxVyN x y n
  | skpVx x => exact Laws.RowPattern.skpVx x
  | sknpVx x => exact Laws.RowPattern.sknpVx x
  | ldVxDt x => exact Laws.RowPattern.ldVxDt x
  | ldVxK x => exact Laws.RowPattern.ldVxK x
  | ldDtVx x => exact Laws.RowPattern.ldDtVx x
  | ldStVx x => exact Laws.RowPattern.ldStVx x
  | addIVx x => exact Laws.RowPattern.addIVx x
  | ldFVx x => exact Laws.RowPattern.ldFVx x
  | ldBVx x => exact Laws.RowPattern.ldBVx x
  | ldIndIVx x => exact Laws.RowPattern.ldIndIVx x
  | ldVxIndI x => exact Laws.RowPattern.ldVxIndI x

/-- What an opcode dispatches to has a row in the table, and the opcode has that row's pattern. -/
theorem exists_row_of_dispatch {op : Word} {i : Instr} (h : dispatch op = some i) :
    ∃ r ∈ opcodeTable, r.number = i.rowNumber ∧ op &&& r.mask = r.pattern := by
  obtain ⟨r, hr, hnumber, hmatches⟩ := rowPattern i
  rw [encode_of_dispatchWith h] at hmatches
  exact ⟨r, hr, hnumber, beq_iff_eq.1 hmatches⟩

theorem opcodeTable_eq_of_number {q r : OpcodeRow} (hq : q ∈ opcodeTable) (hr : r ∈ opcodeTable)
    (h : q.number = r.number) : q = r := by
  have hall : ∀ q ∈ opcodeTable, ∀ r ∈ opcodeTable, q.number = r.number → q = r := by decide
  exact hall q hq r hr h

/-- Two rows whose patterns agree on the bits that both masks keep are one row. -/
theorem opcodeTable_eq_of_common_bits {q r : OpcodeRow} (hq : q ∈ opcodeTable) (hr : r ∈ opcodeTable)
    (h : q.pattern &&& r.mask = r.pattern &&& q.mask) : q = r := by
  have hall : ∀ q ∈ opcodeTable, ∀ r ∈ opcodeTable, q.pattern &&& r.mask = r.pattern &&& q.mask → q = r := by
    decide
  exact hall q hq r hr h

/-- No two rows match the same opcode: on the bits that both masks keep, both patterns are the opcode. -/
theorem opcodeTable_eq_of_matches {op : Word} {q r : OpcodeRow} (hq : q ∈ opcodeTable) (hr : r ∈ opcodeTable)
    (hmq : op &&& q.mask = q.pattern) (hmr : op &&& r.mask = r.pattern) : q = r := by
  apply opcodeTable_eq_of_common_bits hq hr
  rw [← hmq, ← hmr, BitVec.and_assoc, BitVec.and_assoc, BitVec.and_comm q.mask]

/-- The masks of the table keep every bit the dispatch tree switches on: the class, and by class the low nibble, the
low byte or the whole opcode (30_encoding.md R67 to R71). -/
theorem mask_keeps_what_dispatch_reads {r : OpcodeRow} (hr : r ∈ opcodeTable) :
    (fieldsOf r.mask).opclass = 0xF ∧
    (r.pattern.toNat / 4096 = 0 → r.mask = 0xFFFF) ∧
    (r.pattern.toNat / 4096 ∈ [0x5, 0x8, 0x9] → (fieldsOf r.mask).nibble = 0xF) ∧
    (r.pattern.toNat / 4096 ∈ [0xE, 0xF] → (fieldsOf r.mask).byte = 0xFF) := by
  revert r
  decide

theorem dispatch_pattern_ne_none {r : OpcodeRow} (hr : r ∈ opcodeTable) : dispatch r.pattern ≠ none := by
  revert r
  decide

/-- A slice that the mask keeps whole is the same in the opcode and in what is left of it under the mask. -/
theorem extractLsb'_and_of_allOnes {m : Word} {k l : Nat} (op : Word) (hm : m.extractLsb' k l = BitVec.allOnes l) :
    (op &&& m).extractLsb' k l = op.extractLsb' k l := by
  rw [BitVec.extractLsb'_and, hm, BitVec.and_allOnes]

/-- An opcode with a row's pattern selects an operation: were it undefined, the pattern, which agrees with it on all
that R72's table reads, would be undefined too. -/
theorem dispatch_ne_none_of_matches {op : Word} {r : OpcodeRow} (hr : r ∈ opcodeTable)
    (h : op &&& r.mask = r.pattern) : dispatch op ≠ none := by
  intro hnone
  apply dispatch_pattern_ne_none hr
  obtain ⟨hclass, hall, hnibble, hbyte⟩ := mask_keeps_what_dispatch_reads hr
  have hc : op.toNat / 4096 = r.pattern.toNat / 4096 := by
    rw [← fieldsOf_opclass_toNat, ← fieldsOf_opclass_toNat, ← h]
    exact congrArg BitVec.toNat (extractLsb'_and_of_allOnes op hclass).symm
  have hop (h0 : r.pattern.toNat / 4096 = 0) : op = r.pattern := by
    rw [← h, hall h0]
    exact BitVec.and_allOnes.symm
  have hn (hmem : r.pattern.toNat / 4096 ∈ [0x5, 0x8, 0x9]) : op.toNat % 16 = r.pattern.toNat % 16 := by
    rw [← fieldsOf_nibble_toNat, ← fieldsOf_nibble_toNat, ← h]
    exact congrArg BitVec.toNat (extractLsb'_and_of_allOnes op (hnibble hmem)).symm
  have hb (hmem : r.pattern.toNat / 4096 ∈ [0xE, 0xF]) : op.toNat % 256 = r.pattern.toNat % 256 := by
    rw [← fieldsOf_byte_toNat, ← fieldsOf_byte_toNat, ← h]
    exact congrArg BitVec.toNat (extractLsb'_and_of_allOnes op (hbyte hmem)).symm
  rw [undefinedOpcodesAreExactlyTheTable] at hnone ⊢
  rw [hc] at hnone
  exact hnone.imp (fun ⟨h0, hne⟩ => ⟨h0, hop h0 ▸ hne⟩) <|
    .imp (fun ⟨h5, hlow⟩ => ⟨h5, hn (by simp [h5]) ▸ hlow⟩) <|
    .imp (fun ⟨h8, hlow⟩ => ⟨h8, hn (by simp [h8]) ▸ hlow⟩) <|
    .imp (fun ⟨h9, hlow⟩ => ⟨h9, hn (by simp [h9]) ▸ hlow⟩) <|
    .imp (fun ⟨hE, hlow⟩ => ⟨hE, hb (by simp [hE]) ▸ hlow⟩)
      (fun ⟨hF, hlow⟩ => ⟨hF, hb (by simp [hF]) ▸ hlow⟩)

/-- Settles O4: an opcode has the pattern of the row of what it dispatches to, it dispatches to something if it has any
row's pattern, and it has no two rows' patterns. -/
theorem dispatchSelectsTheMatchingRow : Obligations.DispatchSelectsTheMatchingRow := by
  refine fun op r hr => ⟨⟨?_, fun h => ?_⟩, fun q hq hmr hmq => opcodeTable_eq_of_matches hq hr hmq hmr⟩
  · rintro ⟨i, hi, hnumber⟩
    obtain ⟨q, hq, hqi, hmq⟩ := exists_row_of_dispatch hi
    obtain rfl := opcodeTable_eq_of_number hq hr (hqi.trans hnumber)
    exact hmq
  · obtain ⟨i, hi⟩ := Option.ne_none_iff_exists'.1 (dispatch_ne_none_of_matches hr h)
    obtain ⟨q, hq, hqi, hmq⟩ := exists_row_of_dispatch hi
    obtain rfl := opcodeTable_eq_of_matches hq hr hmq h
    exact ⟨i, hi, hqi.symm⟩

end Sys2Proof
end

section
/-! PROOFS. The step on an opcode that selects no operation (30_encoding.md R72, 60_exceptions.md R162). -/

namespace Sys2Proof.Machine

/-- A running machine takes the fault UnknownOpcode for a fetched opcode that selects no operation. -/
theorem step_of_unknownOpcode {s : State} (hmode : s.mode = .running) (hpc : s.pc.toNat + 1 < Config.memSize)
    (hnone : dispatch (opcodeOf (s.mem.byte s.pc.toNat) (s.mem.byte (s.pc.toNat + 1))) = none) :
    step s = .next (takeFault
      (.unknownOpcode (opcodeOf (s.mem.byte s.pc.toNat) (s.mem.byte (s.pc.toNat + 1)))) (ticksBeforeStep s)) := by
  have hfetch : fetch (ticksBeforeStep s) = _ := fetch_ok (ticksBeforeStep s) hpc
  simp only [step, unitStep, ticksBeforeStep_mode, hmode, hfetch, runOpcode, ticksBeforeStep_pc,
    ticksBeforeStep_mem, hnone]

/-- Settles O14: taking the fault changes the mode alone, and its record carries the opcode. -/
theorem unknownOpcodeFaultsAndChangesOnlyTheMode : Obligations.UnknownOpcodeFaultsAndChangesOnlyTheMode := by
  intro s op hmode hpc hdecode
  obtain ⟨rfl, hnone⟩ := decode_eq_unknownOpcode.1 hdecode
  exact step_of_unknownOpcode hmode hpc hnone

end Sys2Proof.Machine
end

section
/-! PROOFS. Control transfer (40_control_transfer.md R80 to R87): the jumps, call and return with the call stack as a
ring of sixteen saved addresses, runs of nested calls, and the register skips. -/

namespace Sys2Proof.Machine

/-! ### The call stack as a ring -/

/-- The address saved in the entry that `k` names modulo 16, so that a position past the top wraps around. -/
def State.savedAt (s : State) (k : Nat) : Word := s.stack[k % 16]'(Nat.mod_lt k (by decide))

theorem State.savedAt_of_lt (s : State) {k : Nat} (h : k < 16) : s.savedAt k = s.stack[k] := by
  simp only [State.savedAt, Nat.mod_eq_of_lt h]

theorem State.savedAt_congr (s : State) {j k : Nat} (h : j % 16 = k % 16) : s.savedAt j = s.savedAt k := by
  simp only [State.savedAt, h]

theorem State.push_savedAt (s : State) (w : Word) (k : Nat) :
    (s.push w).savedAt k = if s.sp.toNat % 16 = k % 16 then w else s.savedAt k :=
  State.push_stack_getElem s w (k % 16) _

@[simp] theorem State.jump_savedAt (s : State) (w : Word) (k : Nat) : (s.jump w).savedAt k = s.savedAt k := rfl

@[simp] theorem State.pop_savedAt (s : State) (k : Nat) : s.pop.savedAt k = s.savedAt k := rfl

/-- A pop reads the entry one below `SP`. -/
theorem State.popValue_eq_savedAt (s : State) : s.popValue = s.savedAt (s.sp.toNat + 15) := by
  simp only [State.popValue, State.savedAt, stackSlot_val, poppedSp_toNat, Nat.mod_mod]

/-! ### What each instruction completes with -/

theorem exec_callNnn (nnn : BitVec 12) (s : State) :
    exec (.callNnn nnn) s = .next ((s.push s.pc).jump (addrImm nnn)) := rfl

theorem exec_ret (s : State) : exec .ret s = .next (s.pop.jump (s.popValue + 2)) := rfl

/-- `SP` after a call. -/
theorem State.push_jump_sp_toNat (s : State) (saved target : Word) :
    ((s.push saved).jump target).sp.toNat = (s.sp.toNat + 1) % 16 := State.push_sp_toNat s saved

/-- `SP` after a return. -/
theorem State.pop_jump_sp_toNat (s : State) (target : Word) :
    (s.pop.jump target).sp.toNat = (s.sp.toNat + 15) % 16 := poppedSp_toNat s.sp

theorem execAll_cons_of_next {i : Instr} {s t : State} (h : exec i s = .next t) (is : List Instr) :
    execAll (i :: is) s = execAll is t := by
  simp only [execAll, h]

/-- A run that completes goes on with the instructions after it. -/
theorem execAll_append_of_some {is : List Instr} {s t : State} (h : execAll is s = some t) (js : List Instr) :
    execAll (is ++ js) s = execAll js t := by
  induction is generalizing s with
  | nil => cases h; rfl
  | cons i is ih =>
    obtain ⟨u, hu, -⟩ := exec_cases i s
    rw [execAll_cons_of_next hu] at h
    rw [List.cons_append, execAll_cons_of_next hu, ih h]

/-! ### Runs of calls and of returns -/

/-- Nested calls move `SP` up by their number and write that many entries from `SP` upward, no other. Up to sixteen
of them leave the first call's address saved, as the fifteen after it do not come round to its entry. -/
theorem execAll_calls (s : State) (targets : List (BitVec 12)) (hsp : s.sp.toNat < 16) :
    ∃ t, execAll (targets.map .callNnn) s = some t ∧ t.sp.toNat = (s.sp.toNat + targets.length) % 16 ∧
      (∀ k, targets.length ≤ k → k < 16 → t.savedAt (s.sp.toNat + k) = s.savedAt (s.sp.toNat + k)) ∧
      (targets ≠ [] → targets.length ≤ 16 → t.savedAt s.sp.toNat = s.pc) := by
  induction targets generalizing s with
  | nil => exact ⟨s, rfl, (Nat.mod_eq_of_lt hsp).symm, fun _ _ _ => rfl, fun hne => absurd rfl hne⟩
  | cons target later ih =>
    have hcalled := s.push_jump_sp_toNat s.pc (addrImm target)
    obtain ⟨t, hrun, htsp, hkept, -⟩ := ih ((s.push s.pc).jump (addrImm target)) (by omega)
    rw [hcalled] at htsp hkept
    simp only [State.jump_savedAt, State.push_savedAt] at hkept
    simp only [List.length_cons]
    refine ⟨t, (execAll_cons_of_next (exec_callNnn target s) _).trans hrun, by omega, fun k hk hk16 => ?_,
      fun _ hlen => ?_⟩
    · calc t.savedAt (s.sp.toNat + k)
          = t.savedAt ((s.sp.toNat + 1) % 16 + (k - 1)) := t.savedAt_congr (by omega)
        _ = s.savedAt ((s.sp.toNat + 1) % 16 + (k - 1)) := by
          rw [hkept (k - 1) (by omega) (by omega), if_neg (by omega)]
        _ = s.savedAt (s.sp.toNat + k) := s.savedAt_congr (by omega)
    · calc t.savedAt s.sp.toNat
          = t.savedAt ((s.sp.toNat + 1) % 16 + 15) := t.savedAt_congr (by omega)
        _ = s.pc := by rw [hkept 15 (by omega) (by decide), if_pos (by omega)]

/-- One return after another moves `SP` down by their number, and the last resumes after the address saved there. -/
theorem execAll_returns (s : State) (n : Nat) :
    ∃ t, execAll (List.replicate (n + 1) .ret) s = some t ∧ t.sp.toNat = (s.sp.toNat + 15 * (n + 1)) % 16 ∧
      t.pc = s.savedAt (s.sp.toNat + 15 * (n + 1)) + 2 := by
  induction n generalizing s with
  | zero => exact ⟨_, rfl, s.pop_jump_sp_toNat _, by rw [State.jump_pc, State.popValue_eq_savedAt]⟩
  | succ n ih =>
    obtain ⟨t, hrun, htsp, hpc⟩ := ih (s.pop.jump (s.popValue + 2))
    rw [State.pop_jump_sp_toNat] at htsp hpc
    refine ⟨t, (execAll_cons_of_next (exec_ret s) _).trans hrun, by omega, ?_⟩
    rw [hpc, State.jump_savedAt, State.pop_savedAt,
      s.savedAt_congr (k := s.sp.toNat + 15 * (n + 1 + 1)) (by omega)]

/-- Settles O31: `n` calls and `n` returns bring `SP` back, and the last return reads the first call's entry, which
at most sixteen calls leave alone. -/
theorem nestedCallsReturnAfterTheFirstCall : Obligations.NestedCallsReturnAfterTheFirstCall := by
  intro s targets hsp hne hlen
  obtain ⟨t, hcalls, htsp, -, hfirst⟩ := execAll_calls s targets hsp
  obtain ⟨n, hn⟩ := Nat.exists_eq_succ_of_ne_zero (mt List.length_eq_zero_iff.1 hne)
  obtain ⟨u, hreturns, husp, hpc⟩ := execAll_returns t n
  have hback : (t.sp.toNat + 15 * (n + 1)) % 16 = s.sp.toNat := by omega
  refine ⟨u, ?_, BitVec.eq_of_toNat_eq (husp.trans hback), ?_⟩
  · rw [execAll_append_of_some hcalls, hn, hreturns]
  · rw [hpc, t.savedAt_congr (k := s.sp.toNat) (by omega), hfirst hne hlen]

/-- Settles O32: sixteen calls go once round the ring, so the seventeenth writes the entry of the first. -/
theorem seventeenthCallOverwritesTheOldestFrame : Obligations.SeventeenthCallOverwritesTheOldestFrame := by
  intro s targets last hsp hlen
  have hne : targets ≠ [] := List.ne_nil_of_length_pos (by omega)
  obtain ⟨t, hcalls, htsp, -, hfirst⟩ := execAll_calls s targets hsp
  have hround : t.sp = s.sp := BitVec.eq_of_toNat_eq (by omega)
  refine ⟨t, _, hcalls, hround, ?_, exec_callNnn last t, ?_, ?_, addrImm_toNat last⟩
  · rw [← t.savedAt_of_lt hsp, hfirst hne hlen.le]
  · rw [State.jump_stack, State.push_stack_getElem, hround, if_pos (Nat.mod_eq_of_lt hsp)]
  · rw [State.push_jump_sp_toNat, hround]

/-! ### The jumps, one call and one return -/

/-- What the jumps and the skips leave alone: they write `PC` only. -/
theorem sameBeyondRegs_withPc (s : State) (w : Word) : sameBeyondRegs s { s with pc := w } :=
  ⟨rfl, ⟨rfl, rfl⟩, ⟨rfl, rfl⟩, fun _ => rfl, rfl, rfl, rfl, rfl, rfl, rfl⟩

/-- The target of the offset jump is the exact sum, as it stays below 65536. -/
theorem addrImm_add_zeroExtend_toNat (nnn : BitVec 12) (b : Byte) :
    (addrImm nnn + b.zeroExtend 16).toNat = nnn.toNat + b.toNat := by
  have hnnn := nnn.isLt
  have hb := b.isLt
  rw [BitVec.toNat_add, addrImm_toNat, BitVec.zeroExtend, BitVec.toNat_setWidth]
  omega

/-- Settles O28: both jumps write `PC` alone, with a target that does not wrap. -/
theorem jumpsReplaceThePc : Obligations.JumpsReplaceThePc := fun s nnn =>
  ⟨⟨_, rfl, addrImm_toNat nnn, fun _ _ => rfl, sameBeyondRegs_withPc s _⟩,
   ⟨_, rfl, addrImm_add_zeroExtend_toNat nnn (s.reg 0), fun _ _ => rfl, sameBeyondRegs_withPc s _⟩⟩

/-- Settles O29: a push writes the entry at `SP` and moves `SP`; the jump after it writes `PC`. -/
theorem callPushesItsOwnAddress : Obligations.CallPushesItsOwnAddress := by
  intro s nnn hsp
  refine ⟨_, exec_callNnn nnn s, ?_, fun j hj hne => ?_, s.push_jump_sp_toNat s.pc _, addrImm_toNat nnn,
    fun _ _ => rfl, rfl, ⟨rfl, rfl⟩, fun _ => rfl, rfl, rfl, rfl, rfl, rfl, rfl⟩ <;>
    rw [State.jump_stack, State.push_stack_getElem, Nat.mod_eq_of_lt hsp]
  · rw [if_pos rfl]
  · rw [if_neg hne.symm]

/-- Settles O30: a pop moves `SP` and leaves the entries; the jump after it writes `PC`. -/
theorem returnResumesAfterTheSavedAddress : Obligations.ReturnResumesAfterTheSavedAddress := by
  intro s _
  refine ⟨_, exec_ret s, s.pop_jump_sp_toNat _, ?_, rfl, fun _ _ => rfl, rfl, ⟨rfl, rfl⟩, fun _ => rfl, rfl, rfl, rfl,
    rfl, rfl, rfl⟩
  rw [State.jump_pc, State.popValue_eq_savedAt, BitVec.toNat_add]
  rfl

/-! ### The skips -/

/-- A skip on a Boolean test moves `PC` by the condition it tests. -/
theorem skipped_skipIf (s : State) {c : Bool} {p : Prop} (h : c = true ↔ p) : skipped p s (s.skipIf c) := by
  refine ⟨fun hp => ?_, fun hp => ?_⟩ <;> rw [State.skipIf_pc]
  · rw [if_pos (h.2 hp), BitVec.toNat_add]; rfl
  · rw [if_neg (mt h.1 hp), BitVec.toNat_add]; rfl

/-- Settles O33: each of the four is a skip on the Boolean test of its condition. -/
theorem registerSkipsTestTheirCondition : Obligations.RegisterSkipsTestTheirCondition := fun s _ _ _ =>
  ⟨⟨_, rfl, skipped_skipIf s beq_iff_eq, fun _ _ => rfl, sameBeyondRegs_withPc s _⟩,
   ⟨_, rfl, skipped_skipIf s bne_iff_ne, fun _ _ => rfl, sameBeyondRegs_withPc s _⟩,
   ⟨_, rfl, skipped_skipIf s beq_iff_eq, fun _ _ => rfl, sameBeyondRegs_withPc s _⟩,
   ⟨_, rfl, skipped_skipIf s bne_iff_ne, fun _ _ => rfl, sameBeyondRegs_withPc s _⟩⟩

end Sys2Proof.Machine
end

section
/-! PROOFS. Register load, arithmetic and logic (41_load_arith_logic.md R100 to R110): what a one-register write and a
flag write followed by a register write leave behind once `PC` has advanced, the flags as numbers, and the eleven
operations by the form of their write. -/

namespace Sys2Proof.Machine

/-! ### The operations that write one register -/

theorem State.setReg_advance_reg_self (s : State) (x : RegIx) (b : Byte) : (s.setReg x b).advance.reg x = b := by
  rw [State.advance_reg, State.setReg_reg, if_pos rfl]

/-- What a completed write of one register leaves alone. -/
theorem State.setReg_advance_frame (s : State) (x : RegIx) (b : Byte) :
    sameRegsExcept [x] s (s.setReg x b).advance ∧ advanced s (s.setReg x b).advance ∧
      sameBeyondRegs s (s.setReg x b).advance :=
  ⟨sameRegsExcept_setReg s x b, State.advanced_advance (s.setReg x b),
    rfl, ⟨rfl, rfl⟩, ⟨rfl, rfl⟩, fun _ => rfl, rfl, rfl, rfl, rfl, rfl, rfl⟩

/-- Settles O34: each load is a write of `V[x]` with the loaded value. -/
theorem registerLoadsWriteVx : Obligations.RegisterLoadsWriteVx := fun s x y kk =>
  ⟨⟨_, rfl, s.setReg_advance_reg_self x kk, s.setReg_advance_frame x kk⟩,
   ⟨_, rfl, s.setReg_advance_reg_self x (s.reg y), s.setReg_advance_frame x (s.reg y)⟩⟩

/-- Settles O35: a write of `V[x]` alone with the sum of two bytes, which wraps. -/
theorem addImmediateWrapsWithoutFlag : Obligations.AddImmediateWrapsWithoutFlag := by
  intro s x kk
  refine ⟨_, rfl, ?_, s.setReg_advance_frame x (s.reg x + kk)⟩
  rw [State.setReg_advance_reg_self, BitVec.toNat_add]

/-- Settles O36: each is a write of `V[x]` alone with the byte operation, whose bits are those of its operands. -/
theorem logicOperationsActBitByBit : Obligations.LogicOperationsActBitByBit := by
  intro s x y
  refine ⟨⟨_, rfl, fun b => ?_, s.setReg_advance_frame x (s.reg x ||| s.reg y)⟩,
    ⟨_, rfl, fun b => ?_, s.setReg_advance_frame x (s.reg x &&& s.reg y)⟩,
    ⟨_, rfl, fun b => ?_, s.setReg_advance_frame x (s.reg x ^^^ s.reg y)⟩⟩
  · rw [State.setReg_advance_reg_self, BitVec.getLsbD_or]
  · rw [State.setReg_advance_reg_self, BitVec.getLsbD_and]
  · rw [State.setReg_advance_reg_self, BitVec.getLsbD_xor]

/-! ### The operations that write a flag and then a register -/

/-- What a completed flag write and register write leave alone. -/
theorem State.setFlagThenReg_advance_frame (s : State) (f : Byte) (x : RegIx) (b : Byte) :
    sameRegsExcept [x, 15] s (s.setFlagThenReg f x b).advance ∧ advanced s (s.setFlagThenReg f x b).advance ∧
      sameBeyondRegs s (s.setFlagThenReg f x b).advance :=
  ⟨fun r hr => sameRegsExcept_setFlagThenReg s f x b r (mt (List.Perm.swap ..).mem_iff.1 hr),
    State.advanced_advance (s.setFlagThenReg f x b),
    rfl, ⟨rfl, rfl⟩, ⟨rfl, rfl⟩, fun _ => rfl, rfl, rfl, rfl, rfl, rfl, rfl⟩

/-- An instruction that ends in a flag write and a register write, by the numbers it writes. The register comes last:
it keeps its result when it is `VF` (D11), and else `VF` keeps the flag. -/
theorem effect_of_exec_eq_setFlagThenReg {i : Instr} {s : State} {f : Byte} {x : RegIx} {b : Byte}
    {flag result : Nat} (hexec : exec i s = .next (s.setFlagThenReg f x b).advance) (hresult : b.toNat = result)
    (hflag : f.toNat = flag) :
    ∃ t, exec i s = .next t ∧ (t.reg x).toNat = result ∧ (x ≠ 15 → (t.reg 15).toNat = flag) ∧
      sameRegsExcept [x, 15] s t ∧ advanced s t ∧ sameBeyondRegs s t := by
  refine ⟨_, hexec, ?_, fun hx => ?_, s.setFlagThenReg_advance_frame f x b⟩ <;>
    rw [State.advance_reg, State.setFlagThenReg_reg]
  · rw [if_pos rfl, hresult]
  · rw [if_neg hx.symm, if_pos rfl, hflag]

/-! ### The flags and results as numbers -/

theorem carryFlag_toNat (a b : Byte) : (carryFlag a b).toNat = if a.toNat + b.toNat > 255 then 1 else 0 := by
  simp only [carryFlag, boolToBit_toNat, decide_eq_true_eq]

theorem greaterFlag_toNat (a b : Byte) : (greaterFlag a b).toNat = if a.toNat > b.toNat then 1 else 0 := by
  simp only [greaterFlag, boolToBit_toNat, decide_eq_true_eq]

theorem lowBitFlag_toNat (a : Byte) : (lowBitFlag a).toNat = a.toNat % 2 := by
  simp only [lowBitFlag, boolToBit_toNat, BitVec.getLsbD, Nat.testBit_zero, decide_eq_true_eq]
  split <;> omega

theorem highBitFlag_toNat (a : Byte) : (highBitFlag a).toNat = a.toNat / 128 := by
  have ha := a.isLt
  simp only [highBitFlag, boolToBit_toNat, BitVec.getLsbD, Nat.testBit_eq_decide_div_mod_eq, decide_eq_true_eq]
  split <;> omega

/-- The difference of two bytes borrows 256. -/
theorem byte_sub_toNat (a b : Byte) : (a - b).toNat = (a.toNat + 256 - b.toNat) % 256 := by
  have hb := b.isLt
  rw [BitVec.toNat_sub]
  omega

theorem byte_shiftRight_one_toNat (a : Byte) : (a >>> 1).toNat = a.toNat / 2 := by
  rw [BitVec.toNat_ushiftRight, Nat.shiftRight_eq_div_pow, pow_one]

theorem byte_shiftLeft_one_toNat (a : Byte) : (a <<< 1).toNat = a.toNat * 2 % 256 := by
  rw [BitVec.toNat_shiftLeft, Nat.shiftLeft_eq, pow_one]

/-- Settles O37: the carry, then the sum of two bytes, which wraps. -/
theorem addRegistersSetsCarry : Obligations.AddRegistersSetsCarry := fun s x y =>
  effect_of_exec_eq_setFlagThenReg rfl (BitVec.toNat_add _ _) (carryFlag_toNat (s.reg x) (s.reg y))

/-- Settles O38: the comparison of minuend and subtrahend, then their difference; SUBN exchanges the operands. -/
theorem subtractionsFlagStrictlyGreater : Obligations.SubtractionsFlagStrictlyGreater := fun s x y =>
  ⟨effect_of_exec_eq_setFlagThenReg rfl (byte_sub_toNat _ _) (greaterFlag_toNat (s.reg x) (s.reg y)),
   effect_of_exec_eq_setFlagThenReg rfl (byte_sub_toNat _ _) (greaterFlag_toNat (s.reg y) (s.reg x))⟩

/-- Settles O39: the lowest or the highest bit of the old value, then the shifted value; `y` is not looked at. -/
theorem shiftsFlagTheBitShiftedOut : Obligations.ShiftsFlagTheBitShiftedOut := fun s x _ =>
  ⟨effect_of_exec_eq_setFlagThenReg rfl (byte_shiftRight_one_toNat _) (lowBitFlag_toNat (s.reg x)),
   effect_of_exec_eq_setFlagThenReg rfl (byte_shiftLeft_one_toNat _) (highBitFlag_toNat (s.reg x))⟩

end Sys2Proof.Machine
end

section
/-! PROOFS. The one optional opcode (42_index_random_display_keypad.md R123, 30_encoding.md R67): `HAS_CLS` is looked at
in class 0 only, and there only for the opcode of clear-display. -/

namespace Sys2Proof

theorem dispatchWith_of_opclass_zero (hasCls : Bool) {op : Word} (h : (fieldsOf op).opclass.toNat = 0) :
    dispatchWith hasCls op = dispatch0 hasCls op := by
  simp only [dispatchWith, h]

/-- Outside class 0 the dispatch does not look at `HAS_CLS`. -/
theorem dispatchWith_congr_of_opclass_ne_zero (b c : Bool) {op : Word} (h : (fieldsOf op).opclass.toNat ≠ 0) :
    dispatchWith b op = dispatchWith c op := by
  simp only [dispatchWith]
  split
  · contradiction
  all_goals rfl

theorem dispatch0_false (op : Word) :
    dispatch0 false op = if op.toNat = 0x00E0 then none else dispatch0 true op := by
  have hcls : op = 0x00E0 ↔ op.toNat = 0x00E0 := BitVec.toNat_inj.symm
  by_cases h : op.toNat = 0x00E0
  · rw [if_pos h, hcls.2 h]; rfl
  · simp only [dispatch0, hcls, h, false_and, if_false]

/-- Settles O6: class 0 by its two exact matches; every other class by not looking at `HAS_CLS`. -/
theorem withoutClsOnlyItsOpcodeIsUndefined : Obligations.WithoutClsOnlyItsOpcodeIsUndefined := by
  intro op
  by_cases hclass : (fieldsOf op).opclass.toNat = 0
  · rw [dispatchWith_of_opclass_zero _ hclass, dispatchWith_of_opclass_zero _ hclass, dispatch0_false]
  · have hop : op.toNat ≠ 0x00E0 := by
      rw [fieldsOf_opclass_toNat] at hclass
      omega
    rw [if_neg hop, dispatchWith_congr_of_opclass_ne_zero false true hclass]

end Sys2Proof
end

section
/-! PROOFS. Address register, random, display and keypad (42_index_random_display_keypad.md R120 to R125,
43_timer_index_memory_keywait.md R138, R140): the operations that write one field and advance, the answers of the
random source and the keypad, the draw whose rows exist, and the reads past the end of memory (20_memory.md R49). -/

namespace Sys2Proof.Machine

/-! ### The operations that write one field and advance -/

/-- What advancing leaves alone: it writes `PC` only. -/
theorem State.advance_frame (s : State) :
    sameRegsExcept [] s s.advance ∧ advanced s s.advance ∧ sameBeyondRegs s s.advance :=
  ⟨fun _ _ => rfl, State.advanced_advance s, sameBeyondRegs_withPc s _⟩

theorem add_zeroExtend_toNat (w : Word) (b : Byte) :
    (w + b.zeroExtend 16).toNat = (w.toNat + b.toNat) % 65536 := by
  have hb := b.isLt
  rw [BitVec.toNat_add, BitVec.zeroExtend, BitVec.toNat_setWidth]
  omega

theorem lowDigit_toNat (b : Byte) : (lowDigit b).toNat = b.toNat % 16 := by
  rw [lowDigit, BitVec.extractLsb'_toNat, Nat.shiftRight_zero]

/-- The address of the glyph of a digit, which stays below 80. -/
theorem glyphAddress_toNat (b : Byte) :
    (BitVec.ofNat 16 (glyphSize * (lowDigit b).toNat)).toNat = 5 * (b.toNat % 16) := by
  rw [BitVec.toNat_ofNat, lowDigit_toNat, glyphSize]
  omega

/-- Settles O40: each writes `I` with its own address and then advances. -/
theorem addressRegisterOperationsWriteOnlyI : Obligations.AddressRegisterOperationsWriteOnlyI := fun s x nnn =>
  ⟨⟨_, rfl, addrImm_toNat nnn, State.advance_frame { s with i := _ }⟩,
   ⟨_, rfl, add_zeroExtend_toNat s.i (s.reg x), State.advance_frame { s with i := _ }⟩,
   ⟨_, rfl, glyphAddress_toNat (s.reg x), State.advance_frame { s with i := _ }⟩⟩

/-- Settles O46: the display becomes the blank grid and `PC` advances. -/
theorem clearUnsetsEveryPixel : Obligations.ClearUnsetsEveryPixel := fun s =>
  ⟨_, rfl, pixel_clearedGrid, State.advance_frame { s with display := clearedGrid }⟩

/-! ### Answers of the random source and the keypad -/

theorem rngAnswer_of_nextIs {s : State} {r : Byte} (h : s.rng.NextIs Config.rngByte r) :
    rngAnswer s = (r, { s with rng := s.rng.consumed }) := by
  rw [rngAnswer, Feed.answer_of_nextIs h]

/-- The keypad's answer about the key that a register selects, when `keys` are down. -/
theorem heldAnswer_lowDigit_of_nextIs {s : State} {keys : BitVec 16} (h : s.levels.NextIs Config.heldKeys keys)
    (b : Byte) :
    heldAnswer s (lowDigit b) = (keys.getLsbD (b.toNat % 16), { s with levels := s.levels.consumed }) := by
  rw [heldAnswer, Feed.answer_of_nextIs h, lowDigit_toNat]

/-- Settles O41: a write of `V[x]` in the state whose source has given its answer. -/
theorem randomAndsOneAnswer : Obligations.RandomAndsOneAnswer := by
  intro s x kk r h
  have hexec : exec (.rndVxKk x kk) s =
      .next (State.setReg { s with rng := s.rng.consumed } x (r &&& kk)).advance := by
    simp only [exec, execRndVxKk, rngAnswer_of_nextIs h]
  exact ⟨_, hexec, State.setReg_advance_reg_self _ x _, rfl, State.setReg_advance_frame _ x _⟩

/-- Settles O47: both are skips, on the held key and on its negation, in the state whose keypad has answered. -/
theorem keypadSkipsTestTheHeldKey : Obligations.KeypadSkipsTestTheHeldKey := by
  intro s x keys h
  have hanswer := heldAnswer_lowDigit_of_nextIs h (s.reg x)
  have hskp : exec (.skpVx x) s =
      .next (State.skipIf (keys.getLsbD ((s.reg x).toNat % 16)) { s with levels := s.levels.consumed }) := by
    simp only [exec, execSkpVx, hanswer]
  have hsknp : exec (.sknpVx x) s =
      .next (State.skipIf (!keys.getLsbD ((s.reg x).toNat % 16)) { s with levels := s.levels.consumed }) := by
    simp only [exec, execSknpVx, hanswer]
  exact ⟨⟨_, hskp, skipped_skipIf _ Iff.rfl, rfl, fun _ _ => rfl, sameBeyondRegs_withPc _ _⟩,
    ⟨_, hsknp, skipped_skipIf _ (Bool.not_eq_true' _).to_iff, rfl, fun _ _ => rfl, sameBeyondRegs_withPc _ _⟩⟩

/-! ### The draw whose rows exist -/

/-- The `n` sprite rows of a draw: the bytes at its effective addresses, in order. -/
def State.rowsAtI (s : State) (n : Nat) : List Byte :=
  (List.range n).map fun k => s.mem.byte (s.effectiveAddress k)

theorem State.rowsAtI_length (s : State) (n : Nat) : (s.rowsAtI n).length = n := by
  rw [State.rowsAtI, List.length_map, List.length_range]

theorem exec_drwVxVyN_of_rowsExist {x y : RegIx} {n : BitVec 4} {s : State}
    (hrows : ∀ k, k < n.toNat → s.effectiveAddress k < 0x1000) :
    exec (.drwVxVyN x y n) s = .next (drawRows x y (s.rowsAtI n.toNat) s).advance := by
  have hread : (List.range' s.i.toNat n.toNat).map s.mem.byte = s.rowsAtI n.toNat := by
    rw [List.range'_eq_map_range, List.map_map]
    rfl
  rw [← hread]
  exact execDrwVxVyN_of_rowsExist hrows

/-- What a completed draw leaves alone, the display aside. -/
theorem drawRows_advance_frame (s : State) (x y : RegIx) (rows : List Byte) :
    sameRegsExcept [15] s (drawRows x y rows s).advance ∧ advanced s (drawRows x y rows s).advance ∧
      sameBeyondRegs { s with display := (drawRows x y rows s).display } (drawRows x y rows s).advance :=
  State.setReg_advance_frame { s with display := (drawRows x y rows s).display } 15 _

/-- Settles O42: the draw completes with the blend of the rows at `I` and its collision bit. -/
theorem drawBlendsTheRowsAtI : Obligations.DrawBlendsTheRowsAtI := by
  intro s x y n hrows
  refine ⟨_, exec_drwVxVyN_of_rowsExist hrows, ?_, drawRows_advance_frame s x y _⟩
  rintro rows rfl
  refine ⟨rfl, ?_⟩
  rw [State.advance_reg, drawRows_reg, if_pos rfl, boolToBit_toNat]
  rfl

/-- The registers drawn from stay, so the second request is the first one again, and the two cancel. -/
theorem drawRows_twice_display (s : State) {x y : RegIx} (hx : x ≠ 15) (hy : y ≠ 15) {rows : List Byte}
    (hlen : rows.length ≤ 32) : (drawRows x y rows (drawRows x y rows s).advance).display = s.display := by
  simp only [drawRows_display, State.advance_display, State.advance_reg, drawRows_reg, if_neg hx, if_neg hy]
  exact xorBlitWith_twice .wrap s.display (s.reg x) (s.reg y) rows hlen

/-- Settles O45: the first draw keeps `I` and memory, so the second reads the same rows. -/
theorem drawingTwiceRestoresTheDisplay : Obligations.DrawingTwiceRestoresTheDisplay := by
  intro s x y n hx hy hrows
  have hfirst := exec_drwVxVyN_of_rowsExist (x := x) (y := y) hrows
  have hsecond := exec_drwVxVyN_of_rowsExist (x := x) (y := y)
    (s := (drawRows x y (s.rowsAtI n.toNat) s).advance) hrows
  have hlen : (s.rowsAtI n.toNat).length ≤ 32 := by
    rw [State.rowsAtI_length]
    omega
  exact ⟨_, (execAll_cons_of_next hfirst _).trans (execAll_cons_of_next hsecond []),
    drawRows_twice_display s hx hy hlen⟩

/-! ### Reads past the end of memory -/

/-- A block read raises for the first of its addresses outside memory. -/
theorem Memory.readBlock_firstPast (m : Memory) {a n k : Nat} (hk : k < n) (hpast : Config.memSize ≤ a + k)
    (hfirst : ∀ j, j < k → a + j < Config.memSize) :
    m.readBlock a n = .error (.outOfBounds (a + k) .read) := by
  have hmax : max a Config.memSize = a + k := by
    rcases k with _ | k
    · exact Nat.max_eq_left hpast
    · have hbefore := hfirst k k.lt_succ_self
      omega
  rw [Memory.readBlock_past m a n (by omega) (by omega), hmax]

theorem completeOrFault_outOfBounds (s : State) (a : Nat) (access : Access) :
    completeOrFault s (.error (.outOfBounds a access)) =
      .next { s with mode := .faulted (outOfBoundsRecord a access) } := by
  rw [← record_outOfBounds]
  rfl

/-- Settles O54: both read a block at `I` before anything else, and its first address outside memory raises. -/
theorem readsPastTheEndFault : Obligations.ReadsPastTheEndFault := by
  intro s x y n k hpast hfirst
  refine ⟨fun hk => ?_, fun hk => ?_⟩
  · have hread := s.mem.readBlock_firstPast hk hpast hfirst
    calc exec (.drwVxVyN x y n) s = _ := execDrwVxVyN_eq_map x y n s
      _ = _ := by rw [hread]; exact completeOrFault_outOfBounds s _ _
  · have hread := s.mem.readBlock_firstPast (Nat.lt_succ_of_le hk) hpast hfirst
    calc exec (.ldVxIndI x) s = _ := execLdVxIndI_eq_map x s
      _ = _ := by rw [hread]; exact completeOrFault_outOfBounds s _ _

end Sys2Proof.Machine
end

section
/-! PROOFS. Timer access, memory transfer and the key wait (43_timer_index_memory_keywait.md R135 to R137, R141 to
R144): the transfers of one timer, the store inside the program region and the one with an address outside it, the
block load, and the step that executes the key wait. -/

namespace Sys2Proof.Machine

/-- Settles O48: a write of `V[x]`, or of one timer, and then the advance. -/
theorem timerTransfersCopyAByte : Obligations.TimerTransfersCopyAByte := fun s x =>
  ⟨⟨_, rfl, s.setReg_advance_reg_self x s.dt, s.setReg_advance_frame x s.dt⟩,
   ⟨_, rfl, rfl, State.advance_frame { s with dt := s.reg x }⟩,
   ⟨_, rfl, rfl, State.advance_frame { s with st := s.reg x }⟩⟩

/-! ### The store inside the program region -/

/-- A store at `I` inside the program region: byte `j` of the list is at `I + j`, and what the store leaves alone. -/
theorem storeAtI_effect {bs : List Byte} {s : State} (hwf : s.mem.wf = true) (hlow : Config.progBase ≤ s.i.toNat)
    (hhigh : s.i.toNat + bs.length ≤ Config.memSize) :
    ∃ t, storeAtI bs s = .next t ∧ (∀ j, j < bs.length → t.mem.byte (s.effectiveAddress j) = bs.getD j 0) ∧
      sameMemoryOutside (s.effectiveAddress 0) bs.length s t ∧ advanced s t ∧ sameBeyondMemory s t := by
  refine ⟨_, storeAtI_ok hlow hhigh, fun j hj => ?_, fun d hd => ?_, State.advanced_advance { s with mem := _ },
    fun _ _ => rfl, rfl, ⟨rfl, rfl⟩, ⟨rfl, rfl⟩, rfl, rfl, rfl, rfl, rfl, rfl⟩
  · rw [List.getD_eq_getElem _ _ hj]
    exact Memory.byte_putBytes_at hwf s.i.toNat hj
  · exact Memory.byte_putBytes_outside hwf hd

/-- Settles O50: a store of three bytes, which are the digits as they stay below 256. -/
theorem bcdStoresThreeDigits : Obligations.BcdStoresThreeDigits := by
  intro s x hwf hlow hhigh
  obtain ⟨t, hexec, hbyte, hframe⟩ := storeAtI_effect (bs := bcdDigits (s.reg x)) hwf hlow hhigh
  have hlen : (bcdDigits (s.reg x)).length = 3 := rfl
  have hx := (s.reg x).isLt
  refine ⟨t, hexec, ?_, ?_, ?_, hframe⟩
  · rw [hbyte 0 (by omega)]
    exact Nat.mod_eq_of_lt (by omega)
  · rw [hbyte 1 (by omega)]
    exact Nat.mod_eq_of_lt (by omega)
  · rw [hbyte 2 (by omega)]
    exact Nat.mod_eq_of_lt (by omega)

/-- Settles O51: a store of the list of registers, whose element `k` is `V[k]`. -/
theorem blockStoreWritesTheRegisters : Obligations.BlockStoreWritesTheRegisters := by
  intro s x hwf hlow hhigh
  have hlen := s.regsUpTo_length x
  obtain ⟨t, hexec, hbyte, hframe⟩ := storeAtI_effect (bs := s.regsUpTo x) hwf hlow (hlen ▸ hhigh)
  rw [hlen] at hbyte hframe
  exact ⟨t, hexec, fun k hk => (hbyte k.toNat (Nat.lt_succ_of_le hk)).trans (s.regsUpTo_getD x k hk), hframe⟩

/-! ### The store with an address outside the program region -/

theorem Memory.writeBlock_cons_outside (m : Memory) {a : Nat} (b : Byte) (bs : List Byte)
    (h : outsideWindow .write a) : m.writeBlock a (b :: bs) = .error (.outOfBounds a .write) := by
  simp only [Memory.writeBlock, m.write_outside b h]

theorem Memory.writeBlock_cons_inside (m : Memory) {a : Nat} (b : Byte) (bs : List Byte)
    (h : ¬ outsideWindow .write a) : m.writeBlock a (b :: bs) = (m.put a b).writeBlock (a + 1) bs := by
  simp only [Memory.writeBlock, m.write_ok b h]

/-- A block write raises for the first of its addresses outside the write window. -/
theorem Memory.writeBlock_firstOutside (m : Memory) {a k : Nat} {bs : List Byte} (hk : k < bs.length)
    (hout : outsideWindow .write (a + k)) (hfirst : ∀ j, j < k → ¬ outsideWindow .write (a + j)) :
    m.writeBlock a bs = .error (.outOfBounds (a + k) .write) := by
  induction bs generalizing m a k with
  | nil => exact absurd hk (Nat.not_lt_zero k)
  | cons b bs ih =>
    cases k with
    | zero => exact m.writeBlock_cons_outside b bs hout
    | succ k =>
      have hshift (j : Nat) : a + (j + 1) = a + 1 + j := by omega
      rw [m.writeBlock_cons_inside (a := a) b bs (hfirst 0 k.succ_pos), hshift k]
      exact ih _ (Nat.lt_of_succ_lt_succ hk) (hshift k ▸ hout) fun j hj =>
        hshift j ▸ hfirst (j + 1) (Nat.succ_lt_succ hj)

/-- A store at `I` takes the fault for the first of its addresses outside the write window. -/
theorem storeAtI_firstOutside {bs : List Byte} {s : State} {k : Nat} (hk : k < bs.length)
    (hout : outsideWindow .write (s.effectiveAddress k))
    (hfirst : ∀ j, j < k → ¬ outsideWindow .write (s.effectiveAddress j)) :
    storeAtI bs s = .next { s with mode := .faulted (outOfBoundsRecord (s.effectiveAddress k) .write) } := by
  rw [storeAtI_eq_map, s.mem.writeBlock_firstOutside hk hout hfirst]
  exact completeOrFault_outOfBounds s _ _

/-- Settles O53: both are stores at `I`, of three bytes and of `x + 1` bytes. -/
theorem storesOutsideTheProgramRegionFault : Obligations.StoresOutsideTheProgramRegionFault := by
  intro s x k hout hbefore
  have hfirst : ∀ j, j < k → ¬ outsideWindow .write (s.effectiveAddress j) := fun j hj =>
    not_or.2 ⟨Nat.not_lt.2 (hbefore j hj).1, Nat.not_le.2 (hbefore j hj).2⟩
  refine ⟨fun hk => storeAtI_firstOutside hk hout hfirst, fun hk => storeAtI_firstOutside ?_ hout hfirst⟩
  rw [State.regsUpTo_length]
  exact Nat.lt_succ_of_le hk

/-! ### The block load -/

/-- A block load inside memory gives the registers the bytes at `I` and goes to the next instruction. -/
theorem execLdVxIndI_ok {x : RegIx} {s : State} (h : s.i.toNat + x.toNat < Config.memSize) :
    execLdVxIndI x s =
      .next (s.setRegsFrom 0 ((List.range' s.i.toNat (x.toNat + 1)).map s.mem.byte)).advance := by
  rw [execLdVxIndI_eq_map, Memory.readBlock_ok _ _ _ (.inl h)]
  rfl

/-- Register `k` after the bytes at `I` were loaded into `V[0]` to `V[x]`: the byte at `I + k`, or its old value. -/
theorem State.loadedAtI_reg (s : State) (x k : RegIx) :
    (s.setRegsFrom 0 ((List.range' s.i.toNat (x.toNat + 1)).map s.mem.byte)).reg k =
      if k.toNat ≤ x.toNat then s.mem.byte (s.effectiveAddress k.toNat) else s.reg k := by
  have hx := x.isLt
  have hlen : ((List.range' s.i.toNat (x.toNat + 1)).map s.mem.byte).length = x.toNat + 1 := by
    rw [List.length_map, List.length_range']
  rw [State.setRegsFrom_reg _ _ _ (by omega), hlen]
  by_cases hk : k.toNat ≤ x.toNat
  · rw [if_pos (by omega), if_pos hk, List.getD_eq_getElem _ _ (by omega)]
    simp
  · rw [if_neg (by omega), if_neg hk]

/-- What a completed load of registers leaves alone, the registers aside. -/
theorem State.setRegsFrom_advance_frame (s : State) (k : Nat) (bs : List Byte) :
    advanced s (s.setRegsFrom k bs).advance ∧ sameBeyondRegs s (s.setRegsFrom k bs).advance := by
  simp [advanced, sameBeyondRegs, sameStack, sameTimers, sameMemory, sameDevices]

/-- Settles O52: the load completes; the registers up to `x` took their bytes, those above it are past the block. -/
theorem blockLoadReadsTheRegisters : Obligations.BlockLoadReadsTheRegisters := fun s x h =>
  ⟨_, execLdVxIndI_ok h, fun k hk => (s.loadedAtI_reg x k).trans (if_pos hk),
    fun k hk => (s.loadedAtI_reg x k).trans (if_neg (Nat.not_le_of_lt hk)), s.setRegsFrom_advance_frame 0 _⟩

/-! ### The key wait -/

theorem State.deliverKey_reg_self_toNat (s : State) (x : RegIx) (k : Key) :
    ((s.deliverKey x k).reg x).toNat = k.toNat := by
  rw [State.deliverKey_reg, if_pos rfl]
  exact BitVec.toNat_setWidth_of_le (by decide)

/-- Settles O55: in the state whose keypad has answered, a key is delivered, and no key changes the mode alone. -/
theorem keyWaitCompletesOrAwaits : Obligations.KeyWaitCompletesOrAwaits := by
  intro s x e h
  have hanswer := eventAnswer_of_nextIs h
  cases e with
  | some k =>
    have hexec : exec (.ldVxK x) s = .next (State.deliverKey x k { s with events := s.events.consumed }) := by
      simp only [exec, execLdVxK, hanswer]
    refine ⟨_, hexec, rfl, fun k' hk' => ?_, nofun⟩
    obtain rfl := Option.some.inj hk'
    exact ⟨State.deliverKey_reg_self_toNat _ x k, State.setReg_advance_frame { s with events := _ } x _⟩
  | none =>
    have hexec : exec (.ldVxK x) s = .next { s with events := s.events.consumed, mode := .awaitingKey x } := by
      simp only [exec, execLdVxK, hanswer]
    exact ⟨_, hexec, rfl, nofun, fun _ => ⟨fun _ _ => rfl, rfl, sameBeyondRegs_withPc _ s.pc⟩⟩

end Sys2Proof.Machine
end

section
/-! PROOFS. The faults, the timers and the display (60_exceptions.md R161 to R178): every step answers a next state, a
faulted machine only ticks, an instruction that faults changes only the mode, the tone, and the request to the
reference display with its collision answer. -/

namespace Sys2Proof.Machine

/-! ### The step and the ticks -/

/-- Settles O17: each end of an Execution Unit step, after the ticks before it, is a next state. -/
theorem everyStepAnswersANextState : Obligations.EveryStepAnswersANextState := fun s =>
  let ⟨t, ht, _⟩ := unitStep_cases (ticksBeforeStep s)
  ⟨t, ht⟩

/-- Settles O12: `decTimer` on each timer, and no other field is written. -/
theorem tickDecrementsEachTimerToZero : Obligations.TickDecrementsEachTimerToZero := fun s =>
  ⟨decTimer_toNat s.dt, decTimer_toNat s.st, fun _ _ => rfl, rfl, rfl, ⟨rfl, rfl⟩, fun _ => rfl, rfl,
    rfl, rfl, rfl, rfl, rfl⟩

/-- A faulted machine makes no step of its own after the ticks. -/
theorem step_of_faulted {s : State} {r : FaultRecord} (hmode : s.mode = .faulted r) :
    step s = .next (ticksBeforeStep s) := by
  simp only [step, unitStep, ticksBeforeStep_mode, hmode]

/-- Settles O15: the next state is the one after the ticks, which write the timers and the ticks feed. -/
theorem faultedMachineOnlyTicks : Obligations.FaultedMachineOnlyTicks := fun s _ hmode =>
  ⟨_, step_of_faulted hmode, hmode, fun _ _ => rfl, rfl, rfl, ⟨rfl, rfl⟩, fun _ => rfl, rfl, rfl, rfl, rfl, rfl, rfl,
    ticksBeforeStep_consumes s⟩

/-! ### The instruction that faults -/

/-- From a state without a fault: what either keeps the mode or takes an OutOfBounds, and ends in a fault, has changed
only the mode, and the record has the access of that OutOfBounds. -/
theorem faulted_of_keepsMode_or_outOfBounds {o : Host.Outcome State Fault Refusal} {s t u : State} {r : FaultRecord}
    {access : Access} (hends : o = .next u ∨ ∃ d, o = .next (takeFault (.outOfBounds d access) s))
    (hkeeps : u.mode = s.mode) (hsafe : s.Safe) (h : o = .next t) (hmode : t.mode = .faulted r) :
    t = { s with mode := .faulted r } ∧ r.kind = .outOfBounds ∧ r.access = access := by
  rcases hends with hend | ⟨d, hend⟩ <;> obtain rfl := Host.Outcome.next.inj (hend.symm.trans h)
  · exact absurd (hkeeps.symm.trans hmode) (hsafe r)
  · obtain rfl := Mode.faulted.inj hmode
    exact ⟨rfl, rfl, rfl⟩

theorem storeAtI_faulted {bs : List Byte} {s t : State} {r : FaultRecord} (hsafe : s.Safe)
    (h : storeAtI bs s = .next t) (hmode : t.mode = .faulted r) :
    t = { s with mode := .faulted r } ∧ r.kind = .outOfBounds ∧ r.access = .write :=
  faulted_of_keepsMode_or_outOfBounds
    ((storeAtI_cases bs s).imp And.left fun ⟨d, hend, _⟩ => ⟨d, hend⟩) rfl hsafe h hmode

theorem execDrwVxVyN_faulted {x y : RegIx} {n : BitVec 4} {s t : State} {r : FaultRecord} (hsafe : s.Safe)
    (h : execDrwVxVyN x y n s = .next t) (hmode : t.mode = .faulted r) :
    t = { s with mode := .faulted r } ∧ r.kind = .outOfBounds ∧ r.access = .read :=
  faulted_of_keepsMode_or_outOfBounds
    ((execDrwVxVyN_cases x y n s).imp And.left fun ⟨d, hend, _⟩ => ⟨d, hend⟩) rfl hsafe h hmode

theorem execLdVxIndI_faulted {x : RegIx} {s t : State} {r : FaultRecord} (hsafe : s.Safe)
    (h : execLdVxIndI x s = .next t) (hmode : t.mode = .faulted r) :
    t = { s with mode := .faulted r } ∧ r.kind = .outOfBounds ∧ r.access = .read :=
  faulted_of_keepsMode_or_outOfBounds
    ((execLdVxIndI_cases x s).imp And.left fun ⟨d, hend, _⟩ => ⟨d, hend⟩)
    (State.setRegsFrom_mode s 0 _) hsafe h hmode

/-- Settles O60: the four that access memory fault as their block access does; every other instruction keeps the mode
or begins to wait. -/
theorem faultingInstructionChangesOnlyTheMode : Obligations.FaultingInstructionChangesOnlyTheMode := by
  intro i s t r hsafe h hmode
  cases i with
  | drwVxVyN x y n =>
    obtain ⟨ht, hkind, haccess⟩ := execDrwVxVyN_faulted hsafe h hmode
    exact ⟨ht, hkind, .inl ⟨⟨x, y, n, rfl⟩, haccess⟩⟩
  | ldVxIndI x =>
    obtain ⟨ht, hkind, haccess⟩ := execLdVxIndI_faulted hsafe h hmode
    exact ⟨ht, hkind, .inr (.inl ⟨⟨x, rfl⟩, haccess⟩)⟩
  | ldBVx x =>
    obtain ⟨ht, hkind, haccess⟩ := storeAtI_faulted hsafe h hmode
    exact ⟨ht, hkind, .inr (.inr ⟨⟨x, .inl rfl⟩, haccess⟩)⟩
  | ldIndIVx x =>
    obtain ⟨ht, hkind, haccess⟩ := storeAtI_faulted hsafe h hmode
    exact ⟨ht, hkind, .inr (.inr ⟨⟨x, .inr rfl⟩, haccess⟩)⟩
  | ldVxK x =>
    rcases execLdVxK_next h with ⟨k, rfl⟩ | rfl
    · exact absurd hmode (hsafe r)
    · cases hmode
  | cls | ret | jpNnn _ | callNnn _ | seVxKk _ _ | sneVxKk _ _ | seVxVy _ _ | sneVxVy _ _ | ldINnn _ | jpV0Nnn _
  | skpVx _ | sknpVx _ | ldDtVx _ | ldStVx _ | addIVx _ | ldFVx _ | ldVxKk _ _ | addVxKk _ _ | ldVxVy _ _
  | orVxVy _ _ | andVxVy _ _ | xorVxVy _ _ | ldVxDt _ | rndVxKk _ _ | addVxVy _ _ | subVxVy _ _ | shrVx _ _
  | subnVxVy _ _ | shlVx _ _ =>
    obtain rfl := Host.Outcome.next.inj h
    exact absurd hmode (hsafe r)

/-! ### The tone -/

theorem tone_eq_true_iff (s : State) : tone s = true ↔ 0 < s.st.toNat := decide_eq_true_iff

/-- Settles O49: the tone reads `ST` alone, which no instruction but `LD ST, Vx` writes. -/
theorem toneIsOnWhileTheSoundTimerRuns : Obligations.ToneIsOnWhileTheSoundTimerRuns := by
  refine ⟨tone_eq_true_iff, fun s t x h => ?_, fun s => ?_, fun s t i hi h => ?_⟩
  · obtain rfl := Host.Outcome.next.inj h
    rw [tone_eq_true_iff]
    exact Nat.pos_iff_ne_zero.trans (BitVec.toNat_ne (y := 0)).symm
  · rw [tone_eq_true_iff, tick_st, decTimer_toNat]
    omega
  · obtain ⟨-, -, -, hst, -⟩ := stateIsWrittenOnlyByItsOperations i s t h
    rw [tone, tone, hst hi]

/-! ### The reference display -/

theorem boolToBit_eq_one_iff (c : Bool) : boolToBit c = 1 ↔ c = true := by cases c <;> decide

/-- Settles O43: `VF` is the collision bit of the blend of at most 15 rows, so no pixel was inverted twice. -/
theorem collisionMeansAPixelWasErased : Obligations.CollisionMeansAPixelWasErased := by
  intro s t x y n hrows h
  obtain rfl := Host.Outcome.next.inj ((exec_drwVxVyN_of_rowsExist hrows).symm.trans h)
  have hlen : (s.rowsAtI n.toNat).length ≤ 32 := by
    rw [State.rowsAtI_length]
    omega
  rw [State.advance_reg, drawRows_reg, if_pos rfl]
  refine ⟨?_, (boolToBit_eq _).resolve_right⟩
  rw [boolToBit_eq_one_iff]
  exact xorBlitWith_collision .wrap s.display (s.reg x) (s.reg y) _ hlen

theorem pixelPlace_wrap_eq_some_iff {vx vy : Byte} {r b : Nat} {row : Fin 32} {col : Fin 64} :
    pixelPlace .wrap vx vy r b = some (row, col) ↔
      row.val = (vy.toNat + r) % 32 ∧ col.val = (vx.toNat + b) % 64 := by
  simp only [pixelPlace, Option.some.injEq, Prod.mk.injEq, Fin.ext_iff, Fin.val_ofNat, eq_comm]

theorem pixelPlace_clip_eq_some_iff {vx vy : Byte} {r b : Nat} {row : Fin 32} {col : Fin 64} :
    pixelPlace .clip vx vy r b = some (row, col) ↔ row.val = vy.toNat + r ∧ col.val = vx.toNat + b := by
  have hrow := row.isLt
  have hcol := col.isLt
  simp only [pixelPlace, Option.dite_none_right_eq_some, Option.some.injEq, Prod.mk.injEq, Fin.ext_iff]
  constructor
  · rintro ⟨-, hr, hc⟩
    exact ⟨hr.symm, hc.symm⟩
  · rintro ⟨hr, hc⟩
    exact ⟨⟨by omega, by omega⟩, hr.symm, hc.symm⟩

/-- The pixels a request covers: the places of the set bits of its rows. -/
theorem mem_spritePlaces_zero {edge : Config.DisplayEdge} {vx vy : Byte} {rows : List Byte} {p : Fin 32 × Fin 64} :
    p ∈ spritePlaces edge vx vy 0 rows ↔ ∃ r b, ∃ h : r < rows.length,
      b < 8 ∧ rows[r].getLsbD (7 - b) = true ∧ pixelPlace edge vx vy r b = some p := by
  simp only [mem_spritePlaces, mem_rowPlaces, Nat.zero_add]
  exact exists_congr fun r => exists_comm

/-- A pixel is set after a request exactly when it was set before or is covered, and not both. -/
theorem pixel_xorBlitWith_eq_true_iff (edge : Config.DisplayEdge) (g : Grid) (vx vy : Byte) {rows : List Byte}
    (hlen : rows.length ≤ 15) (row : Fin 32) (col : Fin 64) :
    pixel (xorBlitWith edge g vx vy rows).1 row col = true ↔
      ¬ (pixel g row col = true ↔ ∃ r b, ∃ h : r < rows.length,
        b < 8 ∧ rows[r].getLsbD (7 - b) = true ∧ pixelPlace edge vx vy r b = some (row, col)) := by
  rw [pixel_xorBlitWith edge g vx vy rows (by omega), ← mem_spritePlaces_zero, bne_iff_ne, ne_eq, Bool.eq_iff_iff,
    decide_eq_true_iff]

/-- Settles O44: a request inverts the places of the set bits, and `pixelPlace` says where they are at each edge. -/
theorem blitInvertsTheCoveredPixels : Obligations.BlitInvertsTheCoveredPixels := by
  intro g vx vy rows row col hlen
  simp only [← pixelPlace_wrap_eq_some_iff, ← pixelPlace_clip_eq_some_iff]
  exact ⟨pixel_xorBlitWith_eq_true_iff .wrap g vx vy hlen row col,
    pixel_xorBlitWith_eq_true_iff .clip g vx vy hlen row col⟩

end Sys2Proof.Machine
end

section
/-! PROOFS. Reset and the first step after it (70_reset_and_hazards.md R190 to R193): the reset event, the entry
address, and the opcode placed where the next step fetches. -/

namespace Sys2Proof

/-- The word of a table row decodes as its opcode dispatches, since its two bytes joined are that opcode again. -/
theorem decodeTableWord_eq_dispatch (nbits w : Nat) : decodeTableWord nbits w = dispatch (tableWord nbits w) := by
  rw [decodeTableWord, decode_bytes]
  cases dispatch (tableWord nbits w) <;> rfl

namespace Machine

/-! ### The opcode placed at `PC` -/

/-- The two bytes at `PC`, high byte first, are the opcode placed there. -/
theorem opcodeOf_placeOpcode {s : State} (hwf : s.mem.wf = true) (op : Word) :
    opcodeOf ((placeOpcode op s).mem.byte s.pc.toNat) ((placeOpcode op s).mem.byte (s.pc.toNat + 1)) = op := by
  have hhi : (placeOpcode op s).mem.byte s.pc.toNat = highByte op :=
    Memory.byte_putBytes_at hwf s.pc.toNat (bs := [highByte op, lowByte op]) (j := 0) Nat.zero_lt_two
  have hlo : (placeOpcode op s).mem.byte (s.pc.toNat + 1) = lowByte op :=
    Memory.byte_putBytes_at hwf s.pc.toNat (bs := [highByte op, lowByte op]) (j := 1) Nat.one_lt_two
  rw [hhi, hlo, opcodeOf_bytes]

/-- The step after an opcode was placed at `PC` executes the instruction the opcode dispatches to, in whatever mode the
machine was before. -/
theorem step_placeOpcode {s : State} {op : Word} {i : Instr} (hwf : s.mem.wf = true)
    (hpc : s.pc.toNat + 1 < Config.memSize) (hi : dispatch op = some i) :
    step (placeOpcode op s) = exec i (ticksBeforeStep (placeOpcode op s)) := by
  have hfetched : dispatch (opcodeOf ((placeOpcode op s).mem.byte s.pc.toNat)
      ((placeOpcode op s).mem.byte (s.pc.toNat + 1))) = some i := by
    rw [opcodeOf_placeOpcode hwf, hi]
  exact step_of_running (s := placeOpcode op s) rfl hpc hfetched

/-! ### The first step after reset -/

theorem reset_pc_inside : State.reset.pc.toNat + 1 < Config.memSize := by decide

/-- Settles O9: the memory of reset is canonical, so the placed word is what the step fetches. -/
theorem placedWordRunsFirst : Obligations.PlacedWordRunsFirst := by
  intro nbits w i hdecode
  rw [decodeTableWord_eq_dispatch] at hdecode
  exact step_placeOpcode Memory.wf_nil reset_pc_inside hdecode

/-- Settles O10: the reset state runs with `PC` at 0x200 whatever its memory holds, so O8 says what the step does. -/
theorem firstInstructionIsAt0x200 : Obligations.FirstInstructionIsAt0x200 :=
  ⟨rfl, rfl, fun m i hdecode =>
    stepRunsTheDecodedInstruction { State.reset with mem := m } i rfl reset_pc_inside hdecode⟩

/-! ### The reset event -/

/-- Settles O20: the event takes every field from the reset state but the four feeds. -/
theorem resetEventRestoresTheConstructionState : Obligations.ResetEventRestoresTheConstructionState := by
  rintro s _ rfl
  exact ⟨rfl, rfl, rfl, rfl, rfl, rfl, rfl, rfl, rfl, rfl, rfl, rfl, rfl⟩

end Machine
end Sys2Proof
end
